-- ==== Sys2Proof/Word.lean ====
section
/-! DEFINITION. The byte, the codec's only data value (00_scope.md R8): it is compared and copied, never computed with. -/

namespace Sys2Proof

/-- "A byte is an 8-bit value in 0..255" (00_scope.md R8). -/
abbrev Byte := BitVec 8

end Sys2Proof
end

