-- ==== Sys2Proof/Config.lean ====
section
/-! DEFINITION. The configuration record: the build-time parameters of 00_scope.md section 3 (10_state.md R15). -/

namespace Sys2Proof

/-- "The model takes the whole table as one configuration record" (00_scope.md section 3). It is a parameter of every
step and no operation writes it (10_state.md R15); log 1 says how a step gets it. -/
structure Config where
  /-- frame-start sentinel (R5, R6) -/
  START : Byte
  /-- frame-end sentinel (R5, R6) -/
  END : Byte
  /-- escape sentinel, the source's ESCAPE (R5, R6) -/
  ESC : Byte
  /-- MAX_FRAME_SIZE, OPEN with `M >= 10` (R7) -/
  M : Nat
  /-- width of the port `enc_len`, OPEN with `2^LEN_W > M+1` (10_state.md R33) -/
  LEN_W : Nat
  /-- number of DEC instances, OPEN, at least 1 (60_exceptions.md R130) -/
  NCHAN : Nat
  /-- number of ENC instances, OPEN, at least 1 (60_exceptions.md R130) -/
  NENC : Nat
  /-- whether a resync and its replay are fused into one step (10_state.md R30, 93_implementation_defined.md I12) -/
  fused : Bool
  deriving DecidableEq, Repr

namespace Config

/-- The constraints a configuration must satisfy "before any rule holds" (70_reset_and_hazards.md R138: the first five
clauses) and the two counts of 60_exceptions.md R130 (log 14). -/
def valid (c : Config) : Bool :=
  decide (c.START ≠ c.END ∧ c.START ≠ c.ESC ∧ c.END ≠ c.ESC ∧ 10 ≤ c.M ∧ c.M + 1 < 2 ^ c.LEN_W ∧ 1 ≤ c.NCHAN ∧
    1 ≤ c.NENC)

/-- `LW = clog2(M+1)`, the width of `dec.len` and `frame_len` (00_scope.md section 3). -/
def LW (c : Config) : Nat := Nat.clog 2 (c.M + 1)

/-- `OW = clog2(2*M+3)`, the width of `out_len` (00_scope.md section 3). -/
def OW (c : Config) : Nat := Nat.clog 2 (2 * c.M + 3)

/-- The configuration of `State.reset`: the spec's default sentinels (R6). DESIGN CHOICE (log 2, unsafe) for the OPEN
parameters: the least `M` that R7 allows, the least `LEN_W` for it, two channels, one encoder. DESIGN CHOICE (log 9):
the unfused form. -/
def default : Config :=
  { START := 0x12, END := 0x13, ESC := 0x7D, M := 10, LEN_W := 4, NCHAN := 2, NENC := 1, fused := false }

end Config

end Sys2Proof
end

