-- ==== Sys2Proof/Syntax.lean ====
section
/-! DEFINITION. The 13 operations of 30_encoding.md R66, one constructor per row of opcode_table.json, and the names
their decode words are made of. -/

namespace Sys2Proof

/-- The four classes of a byte (30_encoding.md R55). -/
inductive ByteClass where
  | OTHER | START | END | ESC
  deriving DecidableEq, Repr

/-- The three decoder states (10_state.md R16, R17). The code 0b11 has no name and cannot be represented (log 16). -/
inductive DecState where
  | waitHeader | inMessage | afterEscape
  deriving DecidableEq, Repr

/-- The 13 operations (30_encoding.md R66). An operation's fields are the bits of its decode word that its row leaves
free: `full` is bit 4 of `dw`, `cls` is bits 1:0 of `dw` or of `ew` (R56, R61). Its data operand, the payload or the
presented byte, is on the port it is selected at. -/
inductive Instr where
  /-- encode one payload (40_encoder.md R67) -/
  | encode
  /-- pass one non-reserved payload byte (R70) -/
  | encLit
  /-- escape one reserved payload byte (R69) -/
  | encEsc (cls : ByteClass)
  /-- open a frame (41_decoder.md R79) -/
  | whStart (full : Bool)
  /-- skip a byte outside a frame (R80) -/
  | whDiscard (full : Bool) (cls : ByteClass)
  /-- take an escape prefix (R81) -/
  | imEsc (full : Bool)
  /-- complete a frame (R82) -/
  | imEnd (full : Bool)
  /-- abandon a frame at an unescaped START (R83) -/
  | imResyncStart (full : Bool)
  /-- store a literal payload byte (R84) -/
  | imAppend
  /-- abandon an oversized frame at a literal byte (R85) -/
  | imOverflow
  /-- abandon a frame at an escape of a non-reserved byte (R88) -/
  | aeBadEscape (full : Bool)
  /-- store an escaped reserved byte (R86) -/
  | aeAppend (cls : ByteClass)
  /-- abandon an oversized frame at an escaped byte (R87) -/
  | aeOverflow (cls : ByteClass)
  deriving DecidableEq, Repr

/-- The word that selects an operation, in its three formats: the command bit `enc_req` (R60), `ew` (R61) and `dw`
(R56). The machine forms the word from its state and its ports; none is stored anywhere (20_memory.md R50). -/
inductive OpWord where
  | cmd (w : BitVec 1)
  | ew (w : BitVec 2)
  | dw (w : BitVec 5)
  deriving DecidableEq, Repr

end Sys2Proof
end

