-- ==== Sys2Proof/WellFormed.lean ====
section
/-! DEFINITION. Which operations a decode word can select: the class fields that an earlier row of the operation map
leaves to a later one (30_encoding.md R57, R61). -/

namespace Sys2Proof

/-- "Row 2 is reached only when row 1 failed, and rows 9 and 10 only when row 8 failed, that is, when `cls != 0b00`"
(30_encoding.md R57); ENC_ESC is selected by "any byte not matched by row 1" (R61). -/
def Instr.wellFormed : Instr → Bool
  | .encode => true
  | .encLit => true
  | .encEsc cls => cls != .OTHER
  | .whStart _ => true
  | .whDiscard _ cls => cls != .START
  | .imEsc _ => true
  | .imEnd _ => true
  | .imResyncStart _ => true
  | .imAppend => true
  | .imOverflow => true
  | .aeBadEscape _ => true
  | .aeAppend cls => cls != .OTHER
  | .aeOverflow cls => cls != .OTHER

end Sys2Proof
end

