-- ==== Sys2Proof/Decode.lean ====
section
/-! DEFINITION. The operation map of 30_encoding.md: the codes of the fields, the decoder of the three words, and the
encoder written from the same tables. -/

namespace Sys2Proof

/-- The code of a byte class (30_encoding.md R55). -/
def ByteClass.code : ByteClass → BitVec 2
  | .OTHER => 0b00#2
  | .START => 0b01#2
  | .END => 0b10#2
  | .ESC => 0b11#2

/-- The class a 2-bit code stands for: all four codes are in use (R55). -/
def ByteClass.ofCode (w : BitVec 2) : ByteClass :=
  if w = 0b00#2 then .OTHER else if w = 0b01#2 then .START else if w = 0b10#2 then .END else .ESC

/-- The encoding of `dec.state` (10_state.md R17). -/
def DecState.code : DecState → BitVec 2
  | .waitHeader => 0b00#2
  | .inMessage => 0b01#2
  | .afterEscape => 0b10#2

/-- The state a 2-bit code stands for; "The code 0b11 is unused" (10_state.md R17). -/
def DecState.ofCode? (w : BitVec 2) : Option DecState :=
  if w = 0b00#2 then some .waitHeader
  else if w = 0b01#2 then some .inMessage
  else if w = 0b10#2 then some .afterEscape
  else none

/-- Why a word selects no operation. -/
inductive Reject where
  /-- a command word with `enc_req = 0` is no request (30_encoding.md R60) -/
  | noRequest
  /-- "Every decode word with `dec.state = 0b11` matches no row" (30_encoding.md R58) -/
  | stateCode11
  deriving DecidableEq, Repr

/-- Bit 4 of `dw` (30_encoding.md R56). -/
def dwFull (w : BitVec 5) : Bool := w.getLsbD 4

/-- Bits 3:2 of `dw`. -/
def dwState (w : BitVec 5) : BitVec 2 := w.extractLsb' 2 2

/-- Bits 1:0 of `dw`. -/
def dwCls (w : BitVec 5) : ByteClass := ByteClass.ofCode (w.extractLsb' 0 2)

/-- `dw = {full, dec.state[1:0], cls[1:0]}` (30_encoding.md R56). -/
def dwOf (full : Bool) (st : DecState) (c : ByteClass) : BitVec 5 :=
  BitVec.ofBool full ++ st.code ++ c.code

/-- One row of an operation map: it matches `w` when `(w & mask) = pattern`. -/
structure OpRow (n : Nat) where
  pattern : BitVec n
  mask : BitVec n
  build : BitVec n → Instr

/-- Whether a row's condition holds of a word. -/
def OpRow.accepts {n : Nat} (r : OpRow n) (w : BitVec n) : Bool := w &&& r.mask == r.pattern

/-- The first row, in order, whose condition holds (30_encoding.md R57, R61). -/
def firstRow {n : Nat} : List (OpRow n) → BitVec n → Option Instr
  | [], _ => none
  | r :: rs, w => if r.accepts w then some (r.build w) else firstRow rs w

/-- The ten rows of the decoder operation map, in its order (30_encoding.md R57). -/
def dwRows : List (OpRow 5) :=
  [ ⟨0b00001#5, 0b01111#5, fun w => .whStart (dwFull w)⟩,
    ⟨0b00000#5, 0b01100#5, fun w => .whDiscard (dwFull w) (dwCls w)⟩,
    ⟨0b00111#5, 0b01111#5, fun w => .imEsc (dwFull w)⟩,
    ⟨0b00110#5, 0b01111#5, fun w => .imEnd (dwFull w)⟩,
    ⟨0b00101#5, 0b01111#5, fun w => .imResyncStart (dwFull w)⟩,
    ⟨0b00100#5, 0b11111#5, fun _ => .imAppend⟩,
    ⟨0b10100#5, 0b11111#5, fun _ => .imOverflow⟩,
    ⟨0b01000#5, 0b01111#5, fun w => .aeBadEscape (dwFull w)⟩,
    ⟨0b01000#5, 0b11100#5, fun w => .aeAppend (dwCls w)⟩,
    ⟨0b11000#5, 0b11100#5, fun w => .aeOverflow (dwCls w)⟩ ]

/-- The two rows of the encoder operation map, in its order (30_encoding.md R61). -/
def ewRows : List (OpRow 2) :=
  [ ⟨0b00#2, 0b11#2, fun _ => .encLit⟩,
    ⟨0b00#2, 0b00#2, fun w => .encEsc (ByteClass.ofCode w)⟩ ]

/-- The row of the command word (30_encoding.md R60). -/
def cmdRows : List (OpRow 1) :=
  [ ⟨0b1#1, 0b1#1, fun _ => .encode⟩ ]

/-- The decoder: the operation a word selects, or the name of the reason it selects none. The second row of `ew` has
an empty mask, so no `ew` word is rejected. -/
def decode : OpWord → Except Reject Instr
  | .cmd w =>
    match firstRow cmdRows w with
    | some i => .ok i
    | none => .error .noRequest
  | .ew w =>
    match firstRow ewRows w with
    | some i => .ok i
    | none => .error .noRequest
  | .dw w =>
    match firstRow dwRows w with
    | some i => .ok i
    | none => .error .stateCode11

/-- The encoder: the word that selects an operation (30_encoding.md R56, R59, R60, R61). -/
def encode : Instr → OpWord
  | .encode => .cmd 0b1#1
  | .encLit => .ew ByteClass.OTHER.code
  | .encEsc cls => .ew cls.code
  | .whStart full => .dw (dwOf full .waitHeader .START)
  | .whDiscard full cls => .dw (dwOf full .waitHeader cls)
  | .imEsc full => .dw (dwOf full .inMessage .ESC)
  | .imEnd full => .dw (dwOf full .inMessage .END)
  | .imResyncStart full => .dw (dwOf full .inMessage .START)
  | .imAppend => .dw (dwOf false .inMessage .OTHER)
  | .imOverflow => .dw (dwOf true .inMessage .OTHER)
  | .aeBadEscape full => .dw (dwOf full .afterEscape .OTHER)
  | .aeAppend cls => .dw (dwOf false .afterEscape cls)
  | .aeOverflow cls => .dw (dwOf true .afterEscape cls)

/-- The word that the number `w` of opcode_table.json stands for. The table's rows have three formats whose words share
numbers (a 0 is `ew` of ENC_LIT and `dw` of WH_DISCARD), and a number alone does not say which. DESIGN CHOICE (log 8):
a number of 1 bit is a command word, one of 2 bits is `ew`, any other is `dw` in its low 5 bits; the bits above a word
do not exist in the hardware. -/
def tableWord (nbits w : Nat) : OpWord :=
  if nbits = 1 then .cmd (BitVec.ofNat 1 w) else if nbits = 2 then .ew (BitVec.ofNat 2 w) else .dw (BitVec.ofNat 5 w)

/-- The instruction the decoder reads from a word numbered as opcode_table.json numbers it (log 8). -/
def decodeTableWord (nbits w : Nat) : Option Instr := (decode (tableWord nbits w)).toOption

end Sys2Proof
end

