-- ==== Sys2Proof/Machine/State.lean ====
section
/-! DEFINITION. The state of the codec (10_state.md), the host's pending moves, what the ports drove in the last step,
the events so far, and the reasons a step can stop. -/

namespace Sys2Proof.Machine

/-- The accumulator `dec.acc[0..dec.len)`, "the only storage in the codec" (20_memory.md R37). 10_state.md R16 lets the
model hold `(dec.acc, dec.len)` as one byte list whose length is `dec.len`: position `i` of the list is address `i`, and
a byte at an address `>= dec.len` is not in the list, since it "holds no value" (R19, log 3). -/
abbrev Memory := List Byte

/-- The state of one DEC instance (10_state.md R16). -/
structure Dec where
  /-- `dec.state` (R17) -/
  state : DecState
  /-- `dec.acc[0..dec.len)` (R19) -/
  acc : Memory
  deriving DecidableEq, Repr

/-- `dec.len`, the write cursor (10_state.md R16, R18). -/
abbrev Dec.len (d : Dec) : Nat := d.acc.length

/-- One channel: the DEC instance it owns (10_state.md R23) and the host's input sequence for it, from the input cursor
on (42_stream.md R98; "The model has one input sequence per DEC", 70_reset_and_hazards.md R140). -/
structure Chan where
  dec : Dec
  /-- the bytes fed and not yet consumed; the head is the byte at the cursor -/
  input : List Byte
  deriving DecidableEq, Repr

/-- The working sequence of an encode command in progress: the variables of the pseudocode of 40_encoder.md R67. It is no
architectural state (10_state.md R27): it is absent between commands (log 7). -/
structure EncWork where
  /-- the ENC instance the command was issued to -/
  enc : Nat
  /-- the payload bytes not yet processed, `p[i..len(p))` -/
  rest : List Byte
  /-- the sequence built so far, `s` -/
  buf : List Byte
  deriving DecidableEq, Repr

/-- The result of an encode command (10_state.md R28, R34). -/
inductive EncStatus where
  | ok
  | frameTooLarge
  deriving DecidableEq, Repr

/-- What the host may do in one step (42_stream.md R115). The head of `State.moves` is the move of the next step. A
violation of a host duty has no move (log 17). -/
inductive Move where
  /-- `in_valid = 1` on channel `ch` with the byte at its input cursor; `in_valid = 0` if its input sequence is empty -/
  | clock (ch : Nat)
  /-- `rst = 1` on channel `ch`, with or without `in_valid` (R150); `keep` says whether the host still wants its
  unconsumed bytes delivered after the reset (log 11) -/
  | reset (ch : Nat) (keep : Bool)
  /-- the host starts a feed: `bytes` join the channel's input sequence (R97) -/
  | feed (ch : Nat) (bytes : List Byte)
  /-- `enc_req = 1` on ENC instance `e` with this payload (10_state.md R33) -/
  | encode (e : Nat) (payload : List Byte)
  /-- a step in which no input is driven -/
  | idle
  deriving DecidableEq, Repr

/-- What the output ports drove in the last step (10_state.md R31, R32, R34). A signal of an instance that took no part
in the step is not driven; `Machine/Flags.lean` reads every signal from this record. -/
inductive StepOut where
  /-- every DEC held in reset: bring-up (R36, 70_reset_and_hazards.md R139) -/
  | resetAll
  /-- no instance was driven -/
  | idle
  /-- `rst = 1` on one DEC -/
  | reset (ch : Nat)
  /-- one decoder transition: its consumed flag and the frame it emitted, if any -/
  | dec (ch : Nat) (consumed : Bool) (frame : Option (List Byte))
  /-- the response of one encode command and the sequence it emitted, if any -/
  | enc (e : Nat) (status : EncStatus) (seq : Option (List Byte))
  deriving DecidableEq, Repr

/-- An output event, by value (00_scope.md section 5; 20_memory.md R44, R45). -/
inductive Event where
  | frameSink (ch : Nat) (bytes : List Byte)
  | byteSink (e : Nat) (bytes : List Byte)
  deriving DecidableEq, Repr

/-- The whole machine: the configuration it was built with (log 1), its channels, the encoder's working sequence, the
host's moves, the ports of the last step, and the events so far, oldest first. -/
structure State where
  cfg : Config
  chans : List Chan
  work : Option EncWork
  moves : List Move
  out : StepOut
  events : List Event
  deriving DecidableEq, Repr

/-- Why the machine stops with a fault. Both are accesses the spec forbids; no state that keeps 10_state.md R18 reaches
one. -/
inductive Fault where
  /-- `AccAppend` outside its precondition `dec.len < M` (20_memory.md R38). Raised by IM_APPEND and AE_APPEND in a state
  with `dec.len > M`, which R18 rules out (log 15). Safe. -/
  | accAppendNoRoom
  /-- a read of an accumulator byte that "holds no value" (10_state.md R19, 93_implementation_defined.md I1). Raised by
  `memRead`; no operation reaches it. Safe. -/
  | readNoValue
  deriving DecidableEq, Repr

/-- Why a step has no meaning. -/
inductive Refusal where
  /-- the instruction has no meaning in the model yet; raised by a refused arm of `exec` (there is none). Safe. -/
  | notModelled (mnemonic : String)
  /-- "A model must refuse a configuration that breaks one of them" (70_reset_and_hazards.md R138). Raised by every
  operation and every step. Safe. -/
  | invalidConfig
  /-- the operation is not the one the decode word of this state selects (30_encoding.md R57); raised by every
  operation, never by a step (log 6). Safe. -/
  | notSelected
  /-- a move names a DEC or ENC instance the hardware does not have (60_exceptions.md R130, log 13). Raised by a step.
  Safe. -/
  | noSuchInstance
  /-- the word selects no operation (30_encoding.md R58); no state forms such a word. Raised by a step. Safe. -/
  | illegalWord (r : Reject)
  deriving DecidableEq, Repr

/-- The reset values of one DEC: WaitHeader, `dec.len = 0`, no accumulator byte holds a value (10_state.md R36). -/
def Dec.reset : Dec := { state := .waitHeader, acc := [] }

/-- The machine of configuration `c` after bring-up (70_reset_and_hazards.md R139): every DEC in the state of R36, no
encode command in progress (R137), nothing yet presented or emitted (DESIGN CHOICE for the model's own fields, logs 4, 7,
10). -/
def State.resetOf (c : Config) : State :=
  { cfg := c
    chans := List.replicate c.NCHAN { dec := Dec.reset, input := [] }
    work := none
    moves := []
    out := .resetAll
    events := [] }

/-- The machine right after reset, in the configuration `Config.default` (log 2). -/
def State.reset : State := State.resetOf Config.default

end Sys2Proof.Machine
end

