-- ==== Sys2Proof/Machine/Operands.lean ====
section
/-! DEFINITION. The operands: the class of a byte, the presented byte of a decoder transition, and the word that the
machine forms from its state and ports (30_encoding.md). -/

namespace Sys2Proof.Machine

/-- `isRes(b)` is `b = START or b = END or b = ESC` (00_scope.md section 5, R5). -/
def isRes (c : Config) (b : Byte) : Bool := b == c.START || b == c.END || b == c.ESC

/-- `cls(b)` (30_encoding.md R55). -/
def cls (c : Config) (b : Byte) : ByteClass :=
  if b = c.START then .START else if b = c.END then .END else if b = c.ESC then .ESC else .OTHER

/-- `full = (dec.len = M)` (30_encoding.md R56). -/
def full (c : Config) (d : Dec) : Bool := decide (d.len = c.M)

/-- The decode word of a transition (30_encoding.md R56). -/
def decWord (c : Config) (d : Dec) (b : Byte) : BitVec 5 := dwOf (full c d) d.state (cls c b)

/-- The smallest byte value not in RES: `X` of 30_encoding.md R65. One of 0, 1, 2, 3 is not reserved. -/
def smallestLit (c : Config) : Byte :=
  if isRes c 0 = false then 0 else if isRes c 1 = false then 1 else if isRes c 2 = false then 2 else 3

/-- A byte of a given class. -/
def byteOf (c : Config) : ByteClass → Byte
  | .START => c.START
  | .END => c.END
  | .ESC => c.ESC
  | .OTHER => smallestLit c

/-- What a decoder transition finds at its port: the channel, its DEC state, the presented byte, the input after it, and
the host's moves after this one. -/
structure Presented where
  ch : Nat
  dec : Dec
  byte : Byte
  rest : List Byte
  moves : List Move
  deriving DecidableEq, Repr

/-- The byte presented in the next step: `in_valid = 1` on one DEC (10_state.md R29). -/
def State.presented (s : State) : Option Presented :=
  match s.work, s.moves with
  | none, .clock ch :: ms =>
    match s.chans[ch]? with
    | some { dec := d, input := b :: rest } => some { ch := ch, dec := d, byte := b, rest := rest, moves := ms }
    | _ => none
  | _, _ => none

/-- What an encode command finds at its port. -/
structure Request where
  enc : Nat
  payload : List Byte
  moves : List Move
  deriving DecidableEq, Repr

/-- The command requested in the next step: `enc_req = 1` on one ENC (10_state.md R33, 30_encoding.md R60). -/
def State.request (s : State) : Option Request :=
  match s.work, s.moves with
  | none, .encode e p :: ms => if e < s.cfg.NENC then some { enc := e, payload := p, moves := ms } else none
  | _, _ => none

/-- The payload byte that an encode command in progress processes next, and the command. -/
def State.payloadByte (s : State) : Option (Byte × EncWork) :=
  match s.work with
  | some { enc := e, rest := b :: r, buf := s' } => some (b, { enc := e, rest := r, buf := s' })
  | _ => none

/-- The word the machine forms for its next step, if the step performs an operation: `ew` inside an encode command (R61),
`cmd` at a request (R60), `dw` at a presented byte (R56). -/
def State.fetch (s : State) : Option OpWord :=
  match s.payloadByte, s.request, s.presented with
  | some (b, _), _, _ => some (.ew (cls s.cfg b).code)
  | none, some _, _ => some (.cmd 1#1)
  | none, none, some p => some (.dw (decWord s.cfg p.dec p.byte))
  | none, none, none => none

/-- The operation that the state selects (30_encoding.md R57, R60, R61). -/
def State.selected (s : State) : Option Instr := s.fetch.bind fun w => (decode w).toOption

end Sys2Proof.Machine
end

