-- ==== Sys2Proof/Machine/Flags.lean ====
section
/-! DEFINITION. The signals of the output ports (10_state.md section 5), each read from what the last step drove, and the
spec's labels for the resync kinds. A signal that the spec gives no value in a step has none here (log 20). -/

namespace Sys2Proof.Machine

/-- `in_ready` of channel `ch`: the transition's consumed flag (10_state.md R29), 0 while `rst = 1` (R36). -/
def StepOut.inReady : StepOut → Nat → Option Bool
  | .resetAll, _ => some false
  | .reset c, ch => if c = ch then some false else none
  | .dec c consumed _, ch => if c = ch then some consumed else none
  | .idle, _ => none
  | .enc _ _ _, _ => none

/-- The frame output of channel `ch`: the defined bytes of `frame_data` in a step with `frame_valid = 1` (R31). -/
def StepOut.frame : StepOut → Nat → Option (List Byte)
  | .dec c _ f, ch => if c = ch then f else none
  | .resetAll, _ => none
  | .reset _, _ => none
  | .idle, _ => none
  | .enc _ _ _, _ => none

/-- `frame_valid` of channel `ch`; "In every other step `frame_valid = 0`" (R31). -/
def StepOut.frameValid (o : StepOut) (ch : Nat) : Bool := (o.frame ch).isSome

/-- `frame_len` of channel `ch`, in a step with `frame_valid = 1` (R31). -/
def StepOut.frameLen (o : StepOut) (ch : Nat) : Option Nat := (o.frame ch).map List.length

/-- The response of ENC instance `e`: its result and the defined bytes of `out_data` (R34). -/
def StepOut.response : StepOut → Nat → Option (EncStatus × Option (List Byte))
  | .enc c st s, e => if c = e then some (st, s) else none
  | .resetAll, _ => none
  | .reset _, _ => none
  | .idle, _ => none
  | .dec _ _ _, _ => none

/-- `enc_done` of ENC instance `e` (R34). -/
def StepOut.encDone (o : StepOut) (e : Nat) : Bool := (o.response e).isSome

/-- The code of a result: 0 = OK, 1 = FRAME_TOO_LARGE (R34, 60_exceptions.md R117). -/
def EncStatus.code : EncStatus → BitVec 1
  | .ok => 0#1
  | .frameTooLarge => 1#1

/-- `enc_status` of ENC instance `e`, in a step with `enc_done = 1` (R34). -/
def StepOut.encStatus (o : StepOut) (e : Nat) : Option (BitVec 1) := (o.response e).map fun r => r.1.code

/-- The sequence output by ENC instance `e`: the defined bytes of `out_data` in a step with `out_valid = 1` (R34). -/
def StepOut.outData (o : StepOut) (e : Nat) : Option (List Byte) := (o.response e).bind fun r => r.2

/-- `out_valid` of ENC instance `e`; "never 1 in any other step" (R34). -/
def StepOut.outValid (o : StepOut) (e : Nat) : Bool := (o.outData e).isSome

/-- `out_len` of ENC instance `e`, in a step with `out_valid = 1` (R34). -/
def StepOut.outLen (o : StepOut) (e : Nat) : Option Nat := (o.outData e).map List.length

/-- The spec's names for the four resync sites (60_exceptions.md R121). "No port outputs them and no state holds them." -/
inductive ResyncKind where
  | RS_START | RS_OVF_DATA | RS_OVF_ESC | RS_BAD_ESC
  deriving DecidableEq, Repr

/-- The codes of the resync kinds (60_exceptions.md R121). -/
def ResyncKind.code : ResyncKind → Nat
  | .RS_START => 1
  | .RS_OVF_DATA => 2
  | .RS_OVF_ESC => 3
  | .RS_BAD_ESC => 4

/-- Which operations are resyncs, and of which kind (60_exceptions.md R119, R121). -/
def resyncKind : Instr → Option ResyncKind
  | .encode => none
  | .encLit => none
  | .encEsc _ => none
  | .whStart _ => none
  | .whDiscard _ _ => none
  | .imEsc _ => none
  | .imEnd _ => none
  | .imResyncStart _ => some .RS_START
  | .imAppend => none
  | .imOverflow => some .RS_OVF_DATA
  | .aeBadEscape _ => some .RS_BAD_ESC
  | .aeAppend _ => none
  | .aeOverflow _ => some .RS_OVF_ESC

end Sys2Proof.Machine
end

