-- ==== Sys2Proof/Machine/Ops.lean ====
section
/-! DEFINITION. The shared operations: the accumulator's primitives, resynchronization, the commit of a transition or of
an encode command, and the host's moves that select no operation. -/

namespace Sys2Proof.Machine

/-! ### The accumulator (20_memory.md section 1) -/

/-- Every byte of the accumulator lies at an index below `M` (10_state.md R18): the form every operation keeps. -/
abbrev Memory.wf (c : Config) (m : Memory) : Prop := m.length ≤ c.M

/-- `MemRead(i, 1)` (00_scope.md section 5). A byte at an index `>= dec.len` holds no value, and "A model that reads one
faults" (10_state.md R19, 93_implementation_defined.md I1). -/
def memRead (d : Dec) (i : Nat) : Except Fault Byte :=
  match d.acc[i]? with
  | some b => .ok b
  | none => .error .readNoValue

/-- The bytes at `n` consecutive indices from `i` on. -/
def memReads (d : Dec) (i : Nat) : Nat → Except Fault (List Byte)
  | 0 => .ok []
  | n + 1 =>
    match memRead d i, memReads d (i + 1) n with
    | .ok b, .ok bs => .ok (b :: bs)
    | .error f, _ => .error f
    | .ok _, .error f => .error f

/-- `AccSeq()`: `[MemRead(0,1), ..., MemRead(dec.len-1,1)]` (00_scope.md section 5). -/
def accSeq (d : Dec) : Except Fault (List Byte) := memReads d 0 d.len

/-- `AccAppend(b)`: `MemWrite(dec.len, 1, b); dec.len <- dec.len + 1`, with its precondition `dec.len < M`
(20_memory.md R38); outside it, a fault (log 15). -/
def accAppend (c : Config) (d : Dec) (b : Byte) : Except Fault Dec :=
  if d.len < c.M then .ok { d with acc := d.acc ++ [b] } else .error .accAppendNoRoom

/-- `AccClear()`: `dec.len <- 0`. "After a clear, every byte holds no value" (20_memory.md R39). -/
def accClear (d : Dec) : Dec := { d with acc := [] }

/-! ### Decoder transitions -/

/-- What one decoder transition returns: the next state, the consumed flag and at most one FrameSink event
(41_decoder.md; 10_state.md R24, R25). -/
structure Trans where
  dec : Dec
  consumed : Bool
  frame : Option (List Byte)
  deriving DecidableEq, Repr

/-- Resync entry, the one effect of all four resyncs (60_exceptions.md R120). It saves nothing, and there is no return
operation (R122): control goes to the WaitHeader transitions, which take the same byte. -/
def resync (d : Dec) : Trans :=
  { dec := { accClear d with state := .waitHeader }, consumed := false, frame := none }

/-- The FrameSink event of a transition, if any. -/
def frameEvents (ch : Nat) : Option (List Byte) → List Event
  | some f => [.frameSink ch f]
  | none => []

/-- The step of a transition: the DEC takes its next state, the input cursor advances exactly when the byte was consumed
(42_stream.md R98), the ports show the consumed flag and the frame (10_state.md R29, R31), and the host's move is over. -/
def State.commit (s : State) (p : Presented) (t : Trans) : State :=
  { s with
    chans := s.chans.set p.ch { dec := t.dec, input := if t.consumed then p.rest else p.byte :: p.rest }
    moves := p.moves
    out := .dec p.ch t.consumed t.frame
    events := s.events ++ frameEvents p.ch t.frame }

/-- An operation has its meaning in a valid configuration (70_reset_and_hazards.md R138) and where the state's decode word
selects it (30_encoding.md R57; log 6). -/
def ifSelected (i : Instr) (s : State) (o : Host.Outcome State Fault Refusal) : Host.Outcome State Fault Refusal :=
  if s.cfg.valid then
    if s.selected = some i then o else .refused .notSelected
  else .refused .invalidConfig

/-- Perform a transition on the presented byte. -/
def onPresented (s : State) (f : Config → Dec → Byte → Except Fault Trans) : Host.Outcome State Fault Refusal :=
  match s.presented with
  | none => .refused .notSelected
  | some p =>
    match f s.cfg p.dec p.byte with
    | .error e => .fault e
    | .ok t => .next (s.commit p t)

/-! ### Encode commands -/

/-- The response of a successful command: the whole sequence in one ByteSink event, in the one response step
(40_encoder.md R72, 10_state.md R34, 20_memory.md R45). -/
def State.respondOk (s : State) (e : Nat) (seq : List Byte) (ms : List Move) : State :=
  { s with
    work := none
    moves := ms
    out := .enc e .ok (some seq)
    events := s.events ++ [.byteSink e seq] }

/-- `raise FrameTooLarge`: the error result in the response step, no event, no other change (60_exceptions.md R117,
R118). -/
def State.raiseFrameTooLarge (s : State) (e : Nat) (ms : List Move) : State :=
  { s with moves := ms, out := .enc e .frameTooLarge none }

/-- Append bytes to the working sequence of the command in progress; nothing is output (20_memory.md R45). -/
def State.pushWork (s : State) (w : EncWork) (bytes : List Byte) : State :=
  { s with work := some { w with buf := w.buf ++ bytes }, out := .idle }

/-- The working sequence at the start of a command, `s <- [START]`, its move taken (40_encoder.md R67). -/
def State.beginWork (s : State) (r : Request) : State :=
  { s with work := some { enc := r.enc, rest := r.payload, buf := [s.cfg.START] }, moves := r.moves }

/-- The end of a command: `s <- s ++ [END]`, then its one event (40_encoder.md R67). -/
def State.finishWork (s : State) (w : EncWork) : State :=
  s.respondOk w.enc (w.buf ++ [s.cfg.END]) s.moves

/-! ### Host moves that select no operation -/

/-- A step in which no instance is driven: nothing changes but the strobes (41_decoder.md R96, 60_exceptions.md R126). -/
def State.idleStep (s : State) (ms : List Move) : State := { s with moves := ms, out := .idle }

/-- `rst = 1` on one DEC: its state takes the reset values, a frame in progress is dropped without an event, nothing else
changes (70_reset_and_hazards.md R134). The presented byte is not consumed (R150, log 11). -/
def State.resetChan (s : State) (ch : Nat) (c : Chan) (keep : Bool) (ms : List Move) : State :=
  { s with
    chans := s.chans.set ch { dec := Dec.reset, input := if keep then c.input else [] }
    moves := ms
    out := .reset ch }

/-- The host starts a feed: the bytes come after those it has already begun to present, since feeds are serialized
(42_stream.md R97, 70_reset_and_hazards.md R140). -/
def State.startFeed (s : State) (ch : Nat) (c : Chan) (bytes : List Byte) (ms : List Move) : State :=
  { s with
    chans := s.chans.set ch { c with input := c.input ++ bytes }
    moves := ms
    out := .idle }

/-- A step with no operation to perform: the end of an encode command in progress, or a host move that drives no
transition and no command. With no move left the machine idles: it "holds its state unchanged" (60_exceptions.md R132). -/
def hostMove (s : State) : Host.Outcome State Fault Refusal :=
  match s.work with
  | some w => .next (s.finishWork w)
  | none =>
    match s.moves with
    | [] => .next (s.idleStep [])
    | .idle :: ms => .next (s.idleStep ms)
    | .clock ch :: ms =>
      match s.chans[ch]? with
      | some _ => .next (s.idleStep ms)
      | none => .refused .noSuchInstance
    | .reset ch keep :: ms =>
      match s.chans[ch]? with
      | some c => .next (s.resetChan ch c keep ms)
      | none => .refused .noSuchInstance
    | .feed ch bytes :: ms =>
      match s.chans[ch]? with
      | some c => .next (s.startFeed ch c bytes ms)
      | none => .refused .noSuchInstance
    | .encode _ _ :: _ => .refused .noSuchInstance

/-- The same byte presented again: the move that a fused implementation adds for the replay (10_state.md R30). -/
def State.presentAgain (s : State) (ch : Nat) : State := { s with moves := .clock ch :: s.moves }

/-! ### Placing a word for the next step (log 8) -/

/-- An accumulator that is full, or not, as a decode word says; the bytes stay where they already are so. -/
def fitAcc (c : Config) (fullBit : Bool) (m : Memory) : Memory :=
  if fullBit then (if m.length = c.M then m else List.replicate c.M (smallestLit c))
  else (if m.length < c.M then m else [])

/-- The state in which the next step forms the word `w`: for `dw`, channel 0 in the word's state, full or not as it says,
with a byte of its class presented; for `cmd`, an empty payload requested of ENC 0; for `ew`, a command in progress whose
next payload byte has that class. A word that no state forms leaves the state as it is. -/
def State.placeWord (s : State) : OpWord → State
  | .cmd w =>
    if w = 1#1 then { s with work := none, moves := .encode 0 [] :: s.moves } else s
  | .ew w =>
    { s with work := some { enc := 0, rest := [byteOf s.cfg (ByteClass.ofCode w)], buf := [s.cfg.START] } }
  | .dw w =>
    match DecState.ofCode? (dwState w), s.chans with
    | some st, c :: cs =>
      { s with
        work := none
        moves := .clock 0 :: s.moves
        chans :=
          { dec := { state := st, acc := fitAcc s.cfg (dwFull w) c.dec.acc }
            input := byteOf s.cfg (dwCls w) :: c.input } :: cs }
    | _, _ => s

end Sys2Proof.Machine
end

