-- ==== Sys2Proof/Machine/Decoder.lean ====
section
/-! DEFINITION. The ten decoder transitions (41_decoder.md). For each: its effect as the spec's pseudocode gives it, and
the operation on the presented byte. -/

namespace Sys2Proof.Machine

/-! ### WaitHeader -/

/-- `AccClear(); dec.state <- InMessage; return consumed = true` (41_decoder.md R79). -/
def whStart (_ : Config) (d : Dec) (_ : Byte) : Except Fault Trans :=
  .ok { dec := { accClear d with state := .inMessage }, consumed := true, frame := none }

/-- WH_START (R79). -/
def execWhStart (f : Bool) (s : State) : Host.Outcome State Fault Refusal :=
  ifSelected (.whStart f) s (onPresented s whStart)

/-- `return consumed = true`, the state unchanged (41_decoder.md R80). -/
def whDiscard (_ : Config) (d : Dec) (_ : Byte) : Except Fault Trans :=
  .ok { dec := d, consumed := true, frame := none }

/-- WH_DISCARD (R80). -/
def execWhDiscard (f : Bool) (k : ByteClass) (s : State) : Host.Outcome State Fault Refusal :=
  ifSelected (.whDiscard f k) s (onPresented s whDiscard)

/-! ### InMessage -/

/-- `dec.state <- AfterEscape; return consumed = true` (41_decoder.md R81). -/
def imEsc (_ : Config) (d : Dec) (_ : Byte) : Except Fault Trans :=
  .ok { dec := { d with state := .afterEscape }, consumed := true, frame := none }

/-- IM_ESC (R81). -/
def execImEsc (f : Bool) (s : State) : Host.Outcome State Fault Refusal :=
  ifSelected (.imEsc f) s (onPresented s imEsc)

/-- `f <- AccSeq(); emit FrameSink(f); AccClear(); dec.state <- WaitHeader; return consumed = true` (41_decoder.md R82). -/
def imEnd (_ : Config) (d : Dec) (_ : Byte) : Except Fault Trans :=
  match accSeq d with
  | .error e => .error e
  | .ok f => .ok { dec := { accClear d with state := .waitHeader }, consumed := true, frame := some f }

/-- IM_END (R82). -/
def execImEnd (f : Bool) (s : State) : Host.Outcome State Fault Refusal :=
  ifSelected (.imEnd f) s (onPresented s imEnd)

/-- `AccClear(); dec.state <- WaitHeader; return consumed = false` (41_decoder.md R83). -/
def imResyncStart (_ : Config) (d : Dec) (_ : Byte) : Except Fault Trans := .ok (resync d)

/-- IM_RESYNC_START (R83). -/
def execImResyncStart (f : Bool) (s : State) : Host.Outcome State Fault Refusal :=
  ifSelected (.imResyncStart f) s (onPresented s imResyncStart)

/-- `AccAppend(b); return consumed = true`, the state stays InMessage (41_decoder.md R84). -/
def imAppend (c : Config) (d : Dec) (b : Byte) : Except Fault Trans :=
  match accAppend c d b with
  | .error e => .error e
  | .ok d' => .ok { dec := d', consumed := true, frame := none }

/-- IM_APPEND (R84). -/
def execImAppend (s : State) : Host.Outcome State Fault Refusal :=
  ifSelected .imAppend s (onPresented s imAppend)

/-- `AccClear(); dec.state <- WaitHeader; return consumed = false` (41_decoder.md R85). -/
def imOverflow (_ : Config) (d : Dec) (_ : Byte) : Except Fault Trans := .ok (resync d)

/-- IM_OVERFLOW (R85). -/
def execImOverflow (s : State) : Host.Outcome State Fault Refusal :=
  ifSelected .imOverflow s (onPresented s imOverflow)

/-! ### AfterEscape -/

/-- `AccAppend(b); dec.state <- InMessage; return consumed = true` (41_decoder.md R86). -/
def aeAppend (c : Config) (d : Dec) (b : Byte) : Except Fault Trans :=
  match accAppend c d b with
  | .error e => .error e
  | .ok d' => .ok { dec := { d' with state := .inMessage }, consumed := true, frame := none }

/-- AE_APPEND (R86). -/
def execAeAppend (k : ByteClass) (s : State) : Host.Outcome State Fault Refusal :=
  ifSelected (.aeAppend k) s (onPresented s aeAppend)

/-- `AccClear(); dec.state <- WaitHeader; return consumed = false` (41_decoder.md R87). -/
def aeOverflow (_ : Config) (d : Dec) (_ : Byte) : Except Fault Trans := .ok (resync d)

/-- AE_OVERFLOW (R87). -/
def execAeOverflow (k : ByteClass) (s : State) : Host.Outcome State Fault Refusal :=
  ifSelected (.aeOverflow k) s (onPresented s aeOverflow)

/-- `AccClear(); dec.state <- WaitHeader; return consumed = false` (41_decoder.md R88). -/
def aeBadEscape (_ : Config) (d : Dec) (_ : Byte) : Except Fault Trans := .ok (resync d)

/-- AE_BAD_ESCAPE (R88). -/
def execAeBadEscape (f : Bool) (s : State) : Host.Outcome State Fault Refusal :=
  ifSelected (.aeBadEscape f) s (onPresented s aeBadEscape)

end Sys2Proof.Machine
end

