-- ==== Sys2Proof/Machine/Encoder.lean ====
section
/-! DEFINITION. The encoder operations (40_encoder.md): ENCODE and its two per-byte operations. -/

namespace Sys2Proof.Machine

/-- `ENC_ESC(b) = [ESC, b]`, "where `b` is sent verbatim, unchanged" (40_encoder.md R69). -/
def encEscBytes (c : Config) (b : Byte) : List Byte := [c.ESC, b]

/-- `ENC_LIT(b) = [b]` (40_encoder.md R70). -/
def encLitBytes (b : Byte) : List Byte := [b]

/-- The per-byte operation of the loop of ENCODE (40_encoder.md R67). -/
def encByte (c : Config) (b : Byte) : List Byte := if isRes c b then encEscBytes c b else encLitBytes b

/-- The byte-stuffed encoding of a payload: `body` of 30_encoding.md R51. -/
def stuff (c : Config) : List Byte → List Byte
  | [] => []
  | b :: p => encByte c b ++ stuff c p

/-- The encoded sequence `s` of a payload (40_encoder.md R67). -/
def encodeSeq (c : Config) (p : List Byte) : List Byte := [c.START] ++ stuff c p ++ [c.END]

/-- ENCODE (40_encoder.md R67): the size guard first (R68, 60_exceptions.md R125), then the whole sequence in one event. -/
def execEncode (s : State) : Host.Outcome State Fault Refusal :=
  ifSelected .encode s <|
    match s.request with
    | none => .refused .notSelected
    | some r =>
      if s.cfg.M < r.payload.length then .next (s.raiseFrameTooLarge r.enc r.moves)
      else .next (s.respondOk r.enc (encodeSeq s.cfg r.payload) r.moves)

/-- ENC_LIT (40_encoder.md R70): the payload byte joins the working sequence (log 7). -/
def execEncLit (s : State) : Host.Outcome State Fault Refusal :=
  ifSelected .encLit s <|
    match s.payloadByte with
    | none => .refused .notSelected
    | some (b, w) => .next (s.pushWork w (encLitBytes b))

/-- ENC_ESC (40_encoder.md R69): ESC and the payload byte join the working sequence (log 7). -/
def execEncEsc (k : ByteClass) (s : State) : Host.Outcome State Fault Refusal :=
  ifSelected (.encEsc k) s <|
    match s.payloadByte with
    | none => .refused .notSelected
    | some (b, w) => .next (s.pushWork w (encEscBytes s.cfg b))

end Sys2Proof.Machine
end

