-- ==== Sys2Proof/Machine/Dispatch.lean ====
section
/-! DEFINITION. One arm per operation. -/

namespace Sys2Proof.Machine

def exec (i : Instr) (s : State) : Host.Outcome State Fault Refusal :=
  match i with
  | .encode => Sys2Proof.Machine.execEncode s
  | .encLit => Sys2Proof.Machine.execEncLit s
  | .encEsc k => Sys2Proof.Machine.execEncEsc k s
  | .whStart f => Sys2Proof.Machine.execWhStart f s
  | .whDiscard f k => Sys2Proof.Machine.execWhDiscard f k s
  | .imEsc f => Sys2Proof.Machine.execImEsc f s
  | .imEnd f => Sys2Proof.Machine.execImEnd f s
  | .imResyncStart f => Sys2Proof.Machine.execImResyncStart f s
  | .imAppend => Sys2Proof.Machine.execImAppend s
  | .imOverflow => Sys2Proof.Machine.execImOverflow s
  | .aeBadEscape f => Sys2Proof.Machine.execAeBadEscape f s
  | .aeAppend k => Sys2Proof.Machine.execAeAppend k s
  | .aeOverflow k => Sys2Proof.Machine.execAeOverflow k s

end Sys2Proof.Machine
end

