-- ==== Sys2Proof/Machine/Fused.lean ====
section
/-! DEFINITION. Running the selected operation, and the fused form of a resync (10_state.md R30, 41_decoder.md R95). -/

namespace Sys2Proof.Machine

/-- Form the word of the next step, decode it, and perform the operation; with no word, the host's move. -/
def runSelected (s : State) : Host.Outcome State Fault Refusal :=
  match s.fetch with
  | none => hostMove s
  | some w =>
    match decode w with
    | .ok i => exec i s
    | .error r => .refused (.illegalWord r)

/-- The fused form: a transition that did not consume its byte is followed in the same step by the WaitHeader transition
that replays it, with `in_ready = 1` (10_state.md R30, 41_decoder.md R95). -/
def replayInStep : Host.Outcome State Fault Refusal → Host.Outcome State Fault Refusal
  | .next t =>
    match t.out with
    | .dec ch false _ => runSelected (t.presentAgain ch)
    | _ => .next t
  | .fault r => .fault r
  | .refused r => .refused r

end Sys2Proof.Machine
end

