-- ==== Sys2Proof/Machine/Step.lean ====
section
/-! DEFINITION. One step of the machine (00_scope.md R9), and the state whose next step runs a given word. -/

namespace Sys2Proof.Machine

/-- One step: one decoder transition, one encode command, or one host move that performs no operation. A configuration
that breaks a constraint is refused (70_reset_and_hazards.md R138). -/
def step (s : State) : Host.Outcome State Fault Refusal :=
  if s.cfg.valid then (if s.cfg.fused then replayInStep (runSelected s) else runSelected s)
  else .refused .invalidConfig

/-- `s` with the word that `w` stands for made the word of its next step (log 8). -/
def State.withFetchWord (s : State) (nbits w : Nat) : State := s.placeWord (tableWord nbits w)

end Sys2Proof.Machine
end

