-- ==== Sys2Proof/Machine/Stream.lean ====
section
/-! DEFINITION. The transition function as the spec states it whole (41_decoder.md R89), the fused byte step (R95) and the
driving loop over a stream (42_stream.md), as functions of one DEC state. -/

namespace Sys2Proof.Machine

/-- `Step(dec, b)` (41_decoder.md R89), with the tests in the spec's order. -/
def transition (c : Config) (d : Dec) (b : Byte) : Trans :=
  match d.state with
  | .waitHeader =>
    if b = c.START then { dec := { state := .inMessage, acc := [] }, consumed := true, frame := none }
    else { dec := d, consumed := true, frame := none }
  | .inMessage =>
    if b = c.ESC then { dec := { state := .afterEscape, acc := d.acc }, consumed := true, frame := none }
    else if b = c.END then { dec := { state := .waitHeader, acc := [] }, consumed := true, frame := some d.acc }
    else if b = c.START then { dec := { state := .waitHeader, acc := [] }, consumed := false, frame := none }
    else if d.len < c.M then
      { dec := { state := .inMessage, acc := d.acc ++ [b] }, consumed := true, frame := none }
    else { dec := { state := .waitHeader, acc := [] }, consumed := false, frame := none }
  | .afterEscape =>
    if isRes c b then
      if d.len < c.M then
        { dec := { state := .inMessage, acc := d.acc ++ [b] }, consumed := true, frame := none }
      else { dec := { state := .waitHeader, acc := [] }, consumed := false, frame := none }
    else { dec := { state := .waitHeader, acc := [] }, consumed := false, frame := none }

/-- The frames of a transition: none or one. -/
def Trans.frames (t : Trans) : List (List Byte) := t.frame.toList

/-- `ByteStep(dec, b)`: a transition and, if it did not consume the byte, its replay (41_decoder.md R95). -/
def byteStep (c : Config) (d : Dec) (b : Byte) : Dec × List (List Byte) :=
  let t := transition c d b
  if t.consumed then (t.dec, t.frames)
  else
    let u := transition c t.dec b
    (u.dec, t.frames ++ u.frames)

/-- The DEC state after a stream and the frames it emitted, in order: `ByteStep` folded over the bytes (R95). -/
def feed (c : Config) (d : Dec) : List Byte → Dec × List (List Byte)
  | [] => (d, [])
  | b :: bs =>
    let r := byteStep c d b
    let q := feed c r.1 bs
    (q.1, r.2 ++ q.2)

/-- Several feeds in a row: the state persists from one to the next (10_state.md R22, 42_stream.md R103). -/
def feedAll (c : Config) (d : Dec) : List (List Byte) → Dec × List (List Byte)
  | [] => (d, [])
  | bs :: bss =>
    let r := feed c d bs
    let q := feedAll c r.1 bss
    (q.1, r.2 ++ q.2)

/-- What a run of the driving loop has done: the DEC state, the frames emitted, and the bytes from the cursor on. -/
structure LoopState where
  dec : Dec
  frames : List (List Byte)
  rest : List Byte
  deriving DecidableEq, Repr

/-- One pass of the driving loop: "the driving loop advances the input cursor only when consumed is true" (42_stream.md
R98). At the end of the bytes it does nothing. -/
def loopPass (c : Config) (l : LoopState) : LoopState :=
  match l.rest with
  | [] => l
  | b :: bs =>
    let t := transition c l.dec b
    { dec := t.dec, frames := l.frames ++ t.frames, rest := if t.consumed then bs else b :: bs }

/-- `n` passes of the driving loop. -/
def loopPasses (c : Config) : Nat → LoopState → LoopState
  | 0, l => l
  | n + 1, l => loopPasses c n (loopPass c l)

/-- The number of transitions the loop takes over a stream (42_stream.md R99). -/
def transCount (c : Config) (d : Dec) : List Byte → Nat
  | [] => 0
  | b :: bs => (if (transition c d b).consumed then 1 else 2) + transCount c (byteStep c d b).1 bs

/-- `{X, ESC, X}` (30_encoding.md R65, 42_stream.md R113). -/
def flushSeq (c : Config) : List Byte := [smallestLit c, c.ESC, smallestLit c]

end Sys2Proof.Machine
end

