-- ==== Sys2Proof/Machine/HostMoves.lean ====
section
/-! DEFINITION. The host notation of 30_encoding.md R65 as lists of moves. -/

namespace Sys2Proof.Machine

/-- `RESET dN`: `rst` on DEC instance N for one step, at channel setup, with no input left over. -/
def resetMoves (ch : Nat) : List Move := [.reset ch false]

/-- `FEED dN {...}`: the bytes presented in order. A feed of `n` bytes takes at most `2*n` transitions (42_stream.md R99);
a step after its last byte is consumed drives `in_valid = 0`. -/
def feedMoves (ch : Nat) (bs : List Byte) : List Move := .feed ch bs :: List.replicate (2 * bs.length) (.clock ch)

/-- `ENCODE eN {...}`: one command. -/
def encodeMoves (e : Nat) (p : List Byte) : List Move := [.encode e p]

/-- `SEND eN dM {...}`: `ENCODE` and, if the result is OK, `FEED dM` of its sequence. -/
def sendMoves (c : Config) (e ch : Nat) (p : List Byte) : List Move :=
  encodeMoves e p ++ (if p.length ≤ c.M then feedMoves ch (encodeSeq c p) else [])

/-- `FLUSH dN`: `FEED dN {X, ESC, X}`. -/
def flushMoves (c : Config) (ch : Nat) : List Move := feedMoves ch (flushSeq c)

end Sys2Proof.Machine
end

