-- ==== Sys2Proof/Safety.lean ====
section
/-! DEFINITION. The states the claims range over: the invariants of 10_state.md R18 and R20, the machine's shape, and the
moves that name instances the hardware has. -/

namespace Sys2Proof.Machine

/-- `dec.len <= M` (10_state.md R18) and `dec.len = 0` in WaitHeader (R20). By R94 of 41_decoder.md these are the
reachable states of a DEC. -/
abbrev Dec.wf (c : Config) (d : Dec) : Prop := Memory.wf c d.acc ∧ (d.state = .waitHeader → d.acc = [])

/-- The working sequence of a command in progress is one that a command can have built: it was accepted, and its output
stays within `2*M+2` bytes (20_memory.md R40). -/
abbrev EncWork.wf (c : Config) (w : EncWork) : Prop :=
  w.enc < c.NENC ∧ 1 ≤ w.buf.length ∧ w.buf.length + 2 * w.rest.length ≤ 2 * c.M + 1

/-- A move names an instance the hardware has (60_exceptions.md R130). -/
abbrev Move.wf (c : Config) : Move → Prop
  | .clock ch => ch < c.NCHAN
  | .reset ch _ => ch < c.NCHAN
  | .feed ch _ => ch < c.NCHAN
  | .encode e _ => e < c.NENC
  | .idle => True

/-- A state of this hardware: a configuration it can have, one DEC for each channel, each within its invariants. -/
structure State.Wf (s : State) : Prop where
  cfg : s.cfg.valid = true
  chans : s.chans.length = s.cfg.NCHAN
  decs : ∀ k ∈ s.chans, k.dec.wf s.cfg
  work : ∀ w ∈ s.work, w.wf s.cfg

/-- The DEC state of channel `ch`. -/
def State.dec? (s : State) (ch : Nat) : Option Dec := (s.chans[ch]?).map (·.dec)

/-- The frames that channel `ch` has emitted, in order (42_stream.md R103). -/
def framesOf (ch : Nat) : List Event → List (List Byte)
  | [] => []
  | .frameSink c f :: es => if c = ch then f :: framesOf ch es else framesOf ch es
  | .byteSink _ _ :: es => framesOf ch es

/-- The sequences that ENC instance `e` has emitted, in order (42_stream.md R103). -/
def sequencesOf (e : Nat) : List Event → List (List Byte)
  | [] => []
  | .byteSink c q :: es => if c = e then q :: sequencesOf e es else sequencesOf e es
  | .frameSink _ _ :: es => sequencesOf e es

/-- The ports of an instance of the hardware, a DEC or an ENC (60_exceptions.md R130). -/
inductive Port where
  | dec (ch : Nat)
  | enc (e : Nat)
  deriving DecidableEq, Repr

/-- The instance whose ports a move drives. -/
def Move.drives : Move → Option Port
  | .clock ch => some (.dec ch)
  | .reset ch _ => some (.dec ch)
  | .feed ch _ => some (.dec ch)
  | .encode e _ => some (.enc e)
  | .idle => none

/-- `n` steps of the machine, stopping at the first fault or refusal: `Host.Core.run` of its core, in the model's own
types. -/
def run : Nat → State → Host.Outcome State Fault Refusal
  | 0, s => .next s
  | n + 1, s =>
    match step s with
    | .next t => run n t
    | .fault r => .fault r
    | .refused r => .refused r

/-- The machine went on. -/
def Completes (o : Host.Outcome State Fault Refusal) : Prop := ∃ t, o = .next t

/-- In a valid configuration and outside a command, the next step presents byte `b` to channel `ch`, whose decoder state
is `d`; `rest` is the input after `b` and `ms` the host's later moves. -/
def State.Presents (s : State) (ch : Nat) (d : Dec) (b : Byte) (rest : List Byte) (ms : List Move) : Prop :=
  s.cfg.valid = true ∧ s.work = none ∧ s.moves = .clock ch :: ms ∧
    s.chans[ch]? = some { dec := d, input := b :: rest }

/-- The state forms a decode word that meets the condition of a row, `(dw & mask) = pattern`, and that the decoder reads
as operation `i`. -/
def State.FormsRow (s : State) (pattern mask : BitVec 5) (i : Instr) : Prop :=
  ∃ w, s.fetch = some (.dw w) ∧ w &&& mask = pattern ∧ decode (.dw w) = .ok i

/-- `body` of the wire grammar, with the payload it stands for (30_encoding.md R51, R52). -/
inductive Body (c : Config) : List Byte → List Byte → Prop where
  /-- no token -/
  | nil : Body c [] []
  /-- `lit ::= b where not isRes(b)` -/
  | lit {p w : List Byte} (b : Byte) : isRes c b = false → Body c p w → Body c (b :: p) (b :: w)
  /-- `esc ::= ESC r where isRes(r)` -/
  | esc {p w : List Byte} (r : Byte) : isRes c r = true → Body c p w → Body c (r :: p) (c.ESC :: r :: w)

end Sys2Proof.Machine
end

