-- ==== Sys2Proof/Certificates/Slice0/Obligations.lean ====
section
/-! DEFINITION. The statements for the provers. Each docstring names the rule of spec/ it formalises; where a clause rests
on the model's own choice, it names the log entry. -/

open Sys2Proof Sys2Proof.Machine

/-! ### Encodings (30_encoding.md) -/

/-- Words written out from 30_encoding.md R59, R60 and R61, and the operations they stand for. -/
def Obligations.SampleWordsDecode : Prop :=
  decode (.cmd 0b1) = .ok .encode ∧ decode (.cmd 0b0) = .error .noRequest ∧
  decode (.ew 0b00) = .ok .encLit ∧ decode (.ew 0b11) = .ok (.encEsc .ESC) ∧
  decode (.dw 0b00001) = .ok (.whStart false) ∧ decode (.dw 0b00010) = .ok (.whDiscard false .END) ∧
  decode (.dw 0b10111) = .ok (.imEsc true) ∧ decode (.dw 0b10110) = .ok (.imEnd true) ∧
  decode (.dw 0b00101) = .ok (.imResyncStart false) ∧ decode (.dw 0b00100) = .ok .imAppend ∧
  decode (.dw 0b10100) = .ok .imOverflow ∧ decode (.dw 0b11000) = .ok (.aeBadEscape true) ∧
  decode (.dw 0b01001) = .ok (.aeAppend .START) ∧ decode (.dw 0b11010) = .ok (.aeOverflow .END)

/-- 30_encoding.md R57 and R58: the ten conditions `(dw & mask) = match` tried in order, each with the operation it
selects; a word with state code 0b11 matches no row, and no state of the machine forms one. -/
def Obligations.DecodeWordSelectsFirstRow : Prop :=
  (∀ w : BitVec 5,
    decode (.dw w) =
      if w &&& 0b01111 = 0b00001 then .ok (.whStart (w.getLsbD 4))
      else if w &&& 0b01100 = 0b00000 then .ok (.whDiscard (w.getLsbD 4) (ByteClass.ofCode (w.extractLsb' 0 2)))
      else if w &&& 0b01111 = 0b00111 then .ok (.imEsc (w.getLsbD 4))
      else if w &&& 0b01111 = 0b00110 then .ok (.imEnd (w.getLsbD 4))
      else if w &&& 0b01111 = 0b00101 then .ok (.imResyncStart (w.getLsbD 4))
      else if w &&& 0b11111 = 0b00100 then .ok .imAppend
      else if w &&& 0b11111 = 0b10100 then .ok .imOverflow
      else if w &&& 0b01111 = 0b01000 then .ok (.aeBadEscape (w.getLsbD 4))
      else if w &&& 0b11100 = 0b01000 then .ok (.aeAppend (ByteClass.ofCode (w.extractLsb' 0 2)))
      else if w &&& 0b11100 = 0b11000 then .ok (.aeOverflow (ByteClass.ofCode (w.extractLsb' 0 2)))
      else .error .stateCode11) ∧
  (∀ w : BitVec 5, w.extractLsb' 2 2 = 0b11 → decode (.dw w) = .error .stateCode11) ∧
  (∀ (s : State) (w : BitVec 5), s.fetch = some (.dw w) → w.extractLsb' 2 2 ≠ 0b11)

/-- Decode and encode agree (R56, R57, R60, R61): decode after encode gives back every well-formed operation, each field at
every value its word admits; encode after decode gives back the word, so that no bit of it is dropped. -/
def Obligations.DecodeAndEncodeAgree : Prop :=
  (∀ i : Instr, i.wellFormed = true → decode (encode i) = .ok i) ∧
  (∀ (w : OpWord) (i : Instr), decode w = .ok i → encode i = w ∧ i.wellFormed = true)

/-- The four byte classes are a partition, given by equality with the sentinels alone (R55; the codes are the spec's
decision D5). -/
def Obligations.ByteClassesPartitionTheBytes : Prop :=
  ∀ (c : Config) (b : Byte), c.valid = true →
    ((cls c b).code = 0b01 ↔ b = c.START) ∧ ((cls c b).code = 0b10 ↔ b = c.END) ∧
    ((cls c b).code = 0b11 ↔ b = c.ESC) ∧ ((cls c b).code = 0b00 ↔ b ≠ c.START ∧ b ≠ c.END ∧ b ≠ c.ESC)

/-! ### A step runs the selected operation -/

/-- A step whose word decodes to `i` is `exec i`; in the fused form (10_state.md R30; log 9) a byte left unconsumed is
presented again within the same step. -/
def Obligations.StepRunsTheDecodedOperation : Prop :=
  ∀ (s : State) (w : OpWord) (i : Instr), s.cfg.valid = true → s.fetch = some w → decode w = .ok i →
    (s.cfg.fused = false → step s = exec i s) ∧
    (s.cfg.fused = true → ∀ t, exec i s = .next t →
      step s = match t.out with
        | .dec ch false _ => runSelected { t with moves := .clock ch :: t.moves }
        | _ => .next t)

/-- 41_decoder.md R90: for every byte presented in a state within the invariants, exactly one of the ten operations is
selected, it completes, and the step never stops. That no other operation completes there is the model's choice: `exec`
refuses an operation that its word does not select (log 6). -/
def Obligations.EveryPresentedByteSelectsOneOperationThatCompletes : Prop :=
  ∀ (s : State) (ch : Nat) (d : Dec) (b : Byte) (rest : List Byte) (ms : List Move),
    s.Presents ch d b rest ms → d.wf s.cfg →
    (∃! i, Completes (exec i s)) ∧
    (∃ w i, s.fetch = some (.dw w) ∧ decode (.dw w) = .ok i ∧ Completes (exec i s)) ∧ Completes (step s)

/-- 41_decoder.md R89: the operation that the decode word selects has the effect of the complete transition function,
written with the spec's tests in the spec's order. -/
def Obligations.SelectedOperationIsTheTransitionFunction : Prop :=
  ∀ (s : State) (ch : Nat) (d : Dec) (b : Byte) (rest : List Byte) (ms : List Move),
    s.Presents ch d b rest ms → d.wf s.cfg →
    ∃ i, s.selected = some i ∧
      exec i s = .next
        { s with
          chans := s.chans.set ch
            { dec := (transition s.cfg d b).dec
              input := if (transition s.cfg d b).consumed then rest else b :: rest }
          moves := ms
          out := .dec ch (transition s.cfg d b).consumed (transition s.cfg d b).frame
          events := s.events ++ ((transition s.cfg d b).frame.toList.map (Event.frameSink ch)) }

/-! ### The ten decoder operations (41_decoder.md R79 to R88) -/

/-- 41_decoder.md R79, WH_START. -/
def Obligations.WhStartOpensAFrame : Prop :=
  ∀ (s : State) (ch : Nat) (a : Memory) (rest : List Byte) (ms : List Move),
    s.Presents ch ⟨.waitHeader, a⟩ s.cfg.START rest ms →
    s.FormsRow 0b00001 0b01111 (.whStart (decide (a.length = s.cfg.M))) ∧
    exec (.whStart (decide (a.length = s.cfg.M))) s = .next
      { s with
        chans := s.chans.set ch ⟨⟨.inMessage, []⟩, rest⟩
        moves := ms
        out := .dec ch true none }

/-- 41_decoder.md R80, WH_DISCARD: any byte but START, an END or ESC among them. -/
def Obligations.WhDiscardSkipsTheByte : Prop :=
  ∀ (s : State) (ch : Nat) (a : Memory) (b : Byte) (rest : List Byte) (ms : List Move),
    s.Presents ch ⟨.waitHeader, a⟩ b rest ms → b ≠ s.cfg.START →
    s.FormsRow 0b00000 0b01100 (.whDiscard (decide (a.length = s.cfg.M)) (cls s.cfg b)) ∧
    exec (.whDiscard (decide (a.length = s.cfg.M)) (cls s.cfg b)) s = .next
      { s with
        chans := s.chans.set ch ⟨⟨.waitHeader, a⟩, rest⟩
        moves := ms
        out := .dec ch true none }

/-- 41_decoder.md R81, IM_ESC: taken even when full. -/
def Obligations.ImEscEntersAfterEscape : Prop :=
  ∀ (s : State) (ch : Nat) (a : Memory) (rest : List Byte) (ms : List Move),
    s.Presents ch ⟨.inMessage, a⟩ s.cfg.ESC rest ms →
    s.FormsRow 0b00111 0b01111 (.imEsc (decide (a.length = s.cfg.M))) ∧
    exec (.imEsc (decide (a.length = s.cfg.M))) s = .next
      { s with
        chans := s.chans.set ch ⟨⟨.afterEscape, a⟩, rest⟩
        moves := ms
        out := .dec ch true none }

/-- 41_decoder.md R82, IM_END: the whole accumulator in one FrameSink event, then WaitHeader and an empty accumulator;
lengths 0 and M included. -/
def Obligations.ImEndDeliversTheFrame : Prop :=
  ∀ (s : State) (ch : Nat) (a : Memory) (rest : List Byte) (ms : List Move),
    s.Presents ch ⟨.inMessage, a⟩ s.cfg.END rest ms →
    s.FormsRow 0b00110 0b01111 (.imEnd (decide (a.length = s.cfg.M))) ∧
    ∃ t, exec (.imEnd (decide (a.length = s.cfg.M))) s = .next t ∧
      t = { s with
            chans := s.chans.set ch ⟨⟨.waitHeader, []⟩, rest⟩
            moves := ms
            out := .dec ch true (some a)
            events := s.events ++ [.frameSink ch a] } ∧
      t.out.frameValid ch = true ∧ t.out.frameLen ch = some a.length

/-- 41_decoder.md R83, IM_RESYNC_START, and the replay of its START by WH_START. -/
def Obligations.ImResyncStartReplaysTheStart : Prop :=
  ∀ (s : State) (ch : Nat) (a : Memory) (rest : List Byte) (ms : List Move),
    s.Presents ch ⟨.inMessage, a⟩ s.cfg.START rest ms →
    s.FormsRow 0b00101 0b01111 (.imResyncStart (decide (a.length = s.cfg.M))) ∧
    resyncKind (.imResyncStart (decide (a.length = s.cfg.M))) = some .RS_START ∧
    ∃ t, exec (.imResyncStart (decide (a.length = s.cfg.M))) s = .next t ∧
      t = { s with
            chans := s.chans.set ch ⟨⟨.waitHeader, []⟩, s.cfg.START :: rest⟩
            moves := ms
            out := .dec ch false none } ∧
      ∀ ms', ms = .clock ch :: ms' →
        exec (.whStart false) t = .next
          { s with
            chans := s.chans.set ch ⟨⟨.inMessage, []⟩, rest⟩
            moves := ms'
            out := .dec ch true none }

/-- 41_decoder.md R84, IM_APPEND: the append that fills the accumulator included. -/
def Obligations.ImAppendStoresTheByte : Prop :=
  ∀ (s : State) (ch : Nat) (a : Memory) (b : Byte) (rest : List Byte) (ms : List Move),
    s.Presents ch ⟨.inMessage, a⟩ b rest ms → isRes s.cfg b = false → a.length < s.cfg.M →
    s.fetch = some (.dw 0b00100) ∧
    exec .imAppend s = .next
      { s with
        chans := s.chans.set ch ⟨⟨.inMessage, a ++ [b]⟩, rest⟩
        moves := ms
        out := .dec ch true none }

/-- 41_decoder.md R85, IM_OVERFLOW, and the replay of its byte by WH_DISCARD. -/
def Obligations.ImOverflowDropsTheFrame : Prop :=
  ∀ (s : State) (ch : Nat) (a : Memory) (b : Byte) (rest : List Byte) (ms : List Move),
    s.Presents ch ⟨.inMessage, a⟩ b rest ms → isRes s.cfg b = false → a.length = s.cfg.M →
    s.fetch = some (.dw 0b10100) ∧ resyncKind .imOverflow = some .RS_OVF_DATA ∧
    ∃ t, exec .imOverflow s = .next t ∧
      t = { s with
            chans := s.chans.set ch ⟨⟨.waitHeader, []⟩, b :: rest⟩
            moves := ms
            out := .dec ch false none } ∧
      ∀ ms', ms = .clock ch :: ms' →
        exec (.whDiscard false .OTHER) t = .next
          { s with
            chans := s.chans.set ch ⟨⟨.waitHeader, []⟩, rest⟩
            moves := ms'
            out := .dec ch true none }

/-- 41_decoder.md R86, AE_APPEND: START, END and ESC alike. -/
def Obligations.AeAppendStoresTheReservedByte : Prop :=
  ∀ (s : State) (ch : Nat) (a : Memory) (b : Byte) (rest : List Byte) (ms : List Move),
    s.Presents ch ⟨.afterEscape, a⟩ b rest ms → isRes s.cfg b = true → a.length < s.cfg.M →
    s.FormsRow 0b01000 0b11100 (.aeAppend (cls s.cfg b)) ∧ (cls s.cfg b).code ≠ 0b00 ∧
    exec (.aeAppend (cls s.cfg b)) s = .next
      { s with
        chans := s.chans.set ch ⟨⟨.inMessage, a ++ [b]⟩, rest⟩
        moves := ms
        out := .dec ch true none }

/-- 41_decoder.md R87, AE_OVERFLOW, and the replay of its byte: a START opens a frame, an END or ESC is discarded. -/
def Obligations.AeOverflowDropsTheFrame : Prop :=
  ∀ (s : State) (ch : Nat) (a : Memory) (b : Byte) (rest : List Byte) (ms : List Move),
    s.Presents ch ⟨.afterEscape, a⟩ b rest ms → isRes s.cfg b = true → a.length = s.cfg.M →
    s.FormsRow 0b11000 0b11100 (.aeOverflow (cls s.cfg b)) ∧ (cls s.cfg b).code ≠ 0b00 ∧
    resyncKind (.aeOverflow (cls s.cfg b)) = some .RS_OVF_ESC ∧
    ∃ t, exec (.aeOverflow (cls s.cfg b)) s = .next t ∧
      t = { s with
            chans := s.chans.set ch ⟨⟨.waitHeader, []⟩, b :: rest⟩
            moves := ms
            out := .dec ch false none } ∧
      ∀ ms', ms = .clock ch :: ms' →
        (b = s.cfg.START → exec (.whStart false) t = .next
          { s with
            chans := s.chans.set ch ⟨⟨.inMessage, []⟩, rest⟩
            moves := ms'
            out := .dec ch true none }) ∧
        (b ≠ s.cfg.START → exec (.whDiscard false (cls s.cfg b)) t = .next
          { s with
            chans := s.chans.set ch ⟨⟨.waitHeader, []⟩, rest⟩
            moves := ms'
            out := .dec ch true none })

/-- 41_decoder.md R88, AE_BAD_ESCAPE, full or not, and the replay of its byte by WH_DISCARD. -/
def Obligations.AeBadEscapeDropsTheFrame : Prop :=
  ∀ (s : State) (ch : Nat) (a : Memory) (b : Byte) (rest : List Byte) (ms : List Move),
    s.Presents ch ⟨.afterEscape, a⟩ b rest ms → isRes s.cfg b = false →
    s.FormsRow 0b01000 0b01111 (.aeBadEscape (decide (a.length = s.cfg.M))) ∧
    resyncKind (.aeBadEscape (decide (a.length = s.cfg.M))) = some .RS_BAD_ESC ∧
    ∃ t, exec (.aeBadEscape (decide (a.length = s.cfg.M))) s = .next t ∧
      t = { s with
            chans := s.chans.set ch ⟨⟨.waitHeader, []⟩, b :: rest⟩
            moves := ms
            out := .dec ch false none } ∧
      ∀ ms', ms = .clock ch :: ms' →
        exec (.whDiscard false .OTHER) t = .next
          { s with
            chans := s.chans.set ch ⟨⟨.waitHeader, []⟩, rest⟩
            moves := ms'
            out := .dec ch true none }

/-! ### The encoder operations (40_encoder.md) -/

/-- 40_encoder.md R67, R68, R72 and 60_exceptions.md R118, ENCODE. A payload of at most M bytes: the whole sequence in one
ByteSink event, in the step of its OK response. A longer one, whatever its bytes: FrameTooLarge, with no event and no
other change. -/
def Obligations.EncodeAnswersOnceWithTheSequenceOrTheError : Prop :=
  ∀ (s : State) (e : Nat) (p : List Byte) (ms : List Move),
    s.cfg.valid = true → s.work = none → s.moves = .encode e p :: ms → e < s.cfg.NENC →
    s.fetch = some (.cmd 0b1) ∧
    (p.length ≤ s.cfg.M → ∃ q t, exec .encode s = .next t ∧
      q = [s.cfg.START]
          ++ p.flatMap (fun b =>
              if b = s.cfg.START ∨ b = s.cfg.END ∨ b = s.cfg.ESC then [s.cfg.ESC, b] else [b])
          ++ [s.cfg.END] ∧
      t = { s with
            moves := ms
            out := .enc e .ok (some q)
            events := s.events ++ [.byteSink e q] } ∧
      t.out.encStatus e = some 0 ∧ t.out.outValid e = true ∧ t.out.outData e = some q) ∧
    (s.cfg.M < p.length → ∃ t, exec .encode s = .next t ∧
      t = { s with moves := ms, out := .enc e .frameTooLarge none } ∧
      t.out.encStatus e = some 1 ∧ t.out.outValid e = false)

/-- 40_encoder.md R70, ENC_LIT, on the working sequence of a command, the model's own state (log 7). -/
def Obligations.EncLitPassesTheByteThrough : Prop :=
  ∀ (s : State) (e : Nat) (b : Byte) (r q : List Byte),
    s.cfg.valid = true → s.work = some ⟨e, b :: r, q⟩ → isRes s.cfg b = false →
    s.fetch = some (.ew 0b00) ∧
    exec .encLit s = .next { s with work := some ⟨e, r, q ++ [b]⟩, out := .idle }

/-- 40_encoder.md R69, ENC_ESC, on the working sequence of a command, the model's own state (log 7). -/
def Obligations.EncEscEscapesTheByte : Prop :=
  ∀ (s : State) (e : Nat) (b : Byte) (r q : List Byte),
    s.cfg.valid = true → s.work = some ⟨e, b :: r, q⟩ → isRes s.cfg b = true →
    (∃ w, s.fetch = some (.ew w) ∧ w ≠ 0b00) ∧
    exec (.encEsc (cls s.cfg b)) s = .next { s with work := some ⟨e, r, q ++ [s.cfg.ESC, b]⟩, out := .idle }

/-- ENCODE is its per-byte operations: from the start of an accepted command (log 7), one step for each payload byte and
one for the end leave the state that the one step of ENCODE leaves (R67). -/
def Obligations.PerByteOperationsMakeUpEncode : Prop :=
  ∀ (s : State) (e : Nat) (p : List Byte) (ms : List Move),
    s.cfg.valid = true → s.work = none → s.moves = .encode e p :: ms → e < s.cfg.NENC → p.length ≤ s.cfg.M →
    run (p.length + 1) { s with work := some ⟨e, p, [s.cfg.START]⟩, moves := ms }
      = exec .encode s

/-- 30_encoding.md R51 and 40_encoder.md R71, R73, R74: the sequence of a payload is START, a body of the grammar, END; the
body stands for that payload and no other; the sequence has `2 + len(p) + count(isRes, p)` bytes, at most `2*M+2`, which
`out_len` holds. -/
def Obligations.EncodedSequenceIsTheFrameOfItsPayload : Prop :=
  ∀ (c : Config) (p : List Byte), c.valid = true →
    (∃ w, encodeSeq c p = [c.START] ++ w ++ [c.END] ∧ Body c p w ∧ ∀ p', Body c p' w → p' = p) ∧
    (∀ q, encodeSeq c q = encodeSeq c p → q = p) ∧
    (encodeSeq c p).length = 2 + p.length + p.countP (isRes c) ∧
    (p.length ≤ c.M → (encodeSeq c p).length ≤ 2 * c.M + 2 ∧ (encodeSeq c p).length < 2 ^ c.OW)

/-! ### Resynchronization, priority, errors (60_exceptions.md) -/

/-- 60_exceptions.md R120: every resync has the one effect: WaitHeader, an empty accumulator, the byte not consumed,
nothing saved, nothing else changed. -/
def Obligations.ResyncEntryHasOneEffect : Prop :=
  ∀ (s : State) (ch : Nat) (d : Dec) (b : Byte) (rest : List Byte) (ms : List Move) (i : Instr),
    s.Presents ch d b rest ms → s.selected = some i → resyncKind i ≠ none →
    exec i s = .next
      { s with
        chans := s.chans.set ch ⟨⟨.waitHeader, []⟩, b :: rest⟩
        moves := ms
        out := .dec ch false none }

/-- 60_exceptions.md R124: in InMessage the byte class decides before room does, in AfterEscape reservedness does. Each
operation named here completes. -/
def Obligations.ByteClassDecidesBeforeRoom : Prop :=
  ∀ (s : State) (ch : Nat) (a : Memory) (b : Byte) (rest : List Byte) (ms : List Move),
    a.length = s.cfg.M →
    (s.Presents ch ⟨.inMessage, a⟩ b rest ms →
      (b = s.cfg.ESC → s.selected = some (.imEsc true) ∧ Completes (exec (.imEsc true) s)) ∧
      (b = s.cfg.END → s.selected = some (.imEnd true) ∧
        ∃ t, exec (.imEnd true) s = .next t ∧ t.events = s.events ++ [.frameSink ch a]) ∧
      (b = s.cfg.START → s.selected = some (.imResyncStart true) ∧
        resyncKind (.imResyncStart true) = some .RS_START ∧ Completes (exec (.imResyncStart true) s))) ∧
    (s.Presents ch ⟨.afterEscape, a⟩ b rest ms → isRes s.cfg b = false →
      s.selected = some (.aeBadEscape true) ∧ resyncKind (.aeBadEscape true) = some .RS_BAD_ESC ∧
        Completes (exec (.aeBadEscape true) s))

/-- 41_decoder.md R91 and 60_exceptions.md R123: a transition that does not consume leaves WaitHeader with nothing
emitted, and the transition that replays its byte consumes it. -/
def Obligations.AByteIsReplayedAtMostOnce : Prop :=
  ∀ (s t : State) (i : Instr) (ch : Nat) (f : Option (List Byte)),
    exec i s = .next t → t.out = .dec ch false f →
    f = none ∧ t.events = s.events ∧ t.dec? ch = some ⟨.waitHeader, []⟩ ∧
    ∀ (j : Instr) (u : State), t.moves.head? = some (.clock ch) → exec j t = .next u →
      u.out = .dec ch true none ∧ u.events = t.events

/-- 70_reset_and_hazards.md R138: a configuration that breaks one of the three constraints is refused, by every step and
every operation. -/
def Obligations.BrokenConfigurationIsRefused : Prop :=
  ∀ s : State,
    (s.cfg.START = s.cfg.END ∨ s.cfg.START = s.cfg.ESC ∨ s.cfg.END = s.cfg.ESC ∨ s.cfg.M < 10 ∨
      2 ^ s.cfg.LEN_W ≤ s.cfg.M + 1) →
    step s = .refused .invalidConfig ∧ ∀ i, exec i s = .refused .invalidConfig

/-- 20_memory.md R38: the append is bounds-checked. It succeeds exactly with room, and then writes the byte at index
`dec.len`, no other, and adds 1 to `dec.len`; at `dec.len = M` it is rejected (by the fault of log 15). -/
def Obligations.AppendSucceedsExactlyWithRoom : Prop :=
  ∀ (c : Config) (d : Dec) (b : Byte),
    ((∃ d', accAppend c d b = .ok d') ↔ d.len < c.M) ∧
    (∀ d', accAppend c d b = .ok d' → d'.state = d.state ∧ d'.len = d.len + 1 ∧ memRead d' d.len = .ok b ∧
      ∀ j, j ≠ d.len → memRead d' j = memRead d j) ∧
    (d.len = c.M → accAppend c d b = .error .accAppendNoRoom)

/-! ### Frames: what an operation leaves unchanged, and what the ports show -/

/-- What every operation leaves unchanged: the configuration, every channel but the presented one, the encoder's working
sequence in a decoder operation, the decoders in an encoder operation, the events already emitted. A move is taken
except inside a command. -/
def Obligations.OperationsLeaveTheRestUnchanged : Prop :=
  ∀ (i : Instr) (s t : State), exec i s = .next t →
    t.cfg = s.cfg ∧ t.chans.length = s.chans.length ∧
    (∀ ch, s.moves.head? ≠ some (.clock ch) → t.chans[ch]? = s.chans[ch]?) ∧
    (∃ new, t.events = s.events ++ new ∧ new.length ≤ 1) ∧
    (s.work = none → t.work = none ∧ t.moves = s.moves.tail) ∧
    (∀ w, s.work = some w → t.moves = s.moves ∧ t.chans = s.chans ∧ t.events = s.events ∧
      ∃ q, t.work = some ⟨w.enc, w.rest.tail, w.buf ++ q⟩) ∧
    ((i = .encode ∨ i = .encLit ∨ ∃ k, i = .encEsc k) → t.chans = s.chans)

/-- Every byte of the presented channel's accumulator: an append writes the byte at index `dec.len` and no other, WH_DISCARD
and IM_ESC write none, and after any other operation no byte holds a value (20_memory.md R38, R39; 10_state.md R19). -/
def Obligations.AccumulatorBytesAfterEachOperation : Prop :=
  ∀ (s t : State) (ch : Nat) (d d' : Dec) (b : Byte) (rest : List Byte) (ms : List Move) (i : Instr),
    s.Presents ch d b rest ms → exec i s = .next t → t.dec? ch = some d' →
    ((i = .imAppend ∨ ∃ k, i = .aeAppend k) →
      memRead d' d.len = .ok b ∧ d'.len = d.len + 1 ∧ ∀ j, j ≠ d.len → memRead d' j = memRead d j) ∧
    (((∃ f, i = .imEsc f) ∨ ∃ f k, i = .whDiscard f k) → ∀ j, memRead d' j = memRead d j) ∧
    (((∃ f, i = .whStart f) ∨ (∃ f, i = .imEnd f) ∨ resyncKind i ≠ none) →
      ∀ j, memRead d' j = .error .readNoValue)

/-- 10_state.md R25: a decoder transition emits at most one FrameSink event, IM_END exactly one, every other none. -/
def Obligations.OnlyImEndEmitsAFrame : Prop :=
  ∀ (s t : State) (ch : Nat) (d : Dec) (b : Byte) (rest : List Byte) (ms : List Move) (i : Instr),
    s.Presents ch d b rest ms → exec i s = .next t →
    ((∃ f, i = .imEnd f) → t.events = s.events ++ [.frameSink ch d.acc]) ∧
    ((¬ ∃ f, i = .imEnd f) → t.events = s.events)

/-- 42_stream.md R104: whenever a step of a state within the invariants emits a frame, that frame is the whole accumulator
at an END presented in InMessage, and has at most M bytes. -/
def Obligations.NoFrameIsPartiallyDelivered : Prop :=
  ∀ (s t : State) (ch : Nat) (f : List Byte) (new : List Event),
    s.Wf → step s = .next t → t.events = s.events ++ new → .frameSink ch f ∈ new →
    f.length ≤ s.cfg.M ∧ new = [.frameSink ch f] ∧
    ∃ rest ms, s.Presents ch ⟨.inMessage, f⟩ s.cfg.END rest ms

/-- 10_state.md R29: the presented byte takes one transition (unfused form), `in_ready` is its consumed flag, and the
cursor advances exactly when it is set; with `in_valid = 0` the DEC takes no transition and keeps its state. -/
def Obligations.InReadyIsTheConsumedFlag : Prop :=
  (∀ (s : State) (ch : Nat) (d : Dec) (b : Byte) (rest : List Byte) (ms : List Move),
    s.Presents ch d b rest ms → d.wf s.cfg → s.cfg.fused = false →
    ∃ t, step s = .next t ∧ t.out.inReady ch = some (transition s.cfg d b).consumed ∧
      t.chans[ch]? = some ⟨(transition s.cfg d b).dec,
        if t.out.inReady ch = some true then rest else b :: rest⟩) ∧
  (∀ (s : State) (ch : Nat) (d : Dec) (ms : List Move),
    s.cfg.valid = true → s.work = none → s.moves = .clock ch :: ms → s.chans[ch]? = some ⟨d, []⟩ →
    ∃ t, step s = .next t ∧ t.chans = s.chans ∧ t.events = s.events)

/-- 10_state.md R31: the frame port is valid exactly in the step of an IM_END, with the accumulator as it stood before,
whose length `frame_len` holds. -/
def Obligations.FramePortShowsTheAccumulatorAtImEnd : Prop :=
  ∀ (s t : State) (ch : Nat) (f : List Byte), step s = .next t →
    (t.out.frame ch = some f ↔ ∃ rest ms, s.Presents ch ⟨.inMessage, f⟩ s.cfg.END rest ms) ∧
    (t.out.frameValid ch = true ↔ ∃ f, t.out.frameLen ch = some f.length ∧ t.out.frame ch = some f) ∧
    (s.Wf → t.out.frame ch = some f → f.length < 2 ^ s.cfg.LW)

/-- 10_state.md R34: the response port of an ENC outside a command in progress: one response in the step of its request,
OK with the sequence or FRAME_TOO_LARGE without one, and none in any other step. -/
def Obligations.ResponsePortAnswersEachRequestOnce : Prop :=
  ∀ (s t : State) (e : Nat), step s = .next t → s.work = none →
    (t.out.encDone e = true ↔ ∃ p, s.moves.head? = some (.encode e p)) ∧
    ∀ p, s.moves.head? = some (.encode e p) →
      (p.length ≤ s.cfg.M → t.out.encStatus e = some 0 ∧ t.out.outValid e = true ∧
        t.out.outData e = some (encodeSeq s.cfg p) ∧ t.out.outLen e = some (encodeSeq s.cfg p).length) ∧
      (s.cfg.M < p.length → t.out.encStatus e = some 1 ∧ t.out.outValid e = false)

/-! ### Reset and idle (10_state.md R36, 70_reset_and_hazards.md) -/

/-- 10_state.md R36, in every configuration: every piece of DEC state, and the strobes of every port. ENC holds no state. -/
def Obligations.ResetValues : Prop :=
  ∀ (c : Config) (ch : Nat), ch < c.NCHAN →
    (∃ d, (State.resetOf c).dec? ch = some d ∧ d.state = .waitHeader ∧ d.state.code = 0b00 ∧ d.len = 0 ∧
      ∀ j, memRead d j = .error .readNoValue) ∧
    (State.resetOf c).out.inReady ch = some false ∧ (State.resetOf c).out.frameValid ch = false ∧
    ∀ e, (State.resetOf c).out.encDone e = false ∧ (State.resetOf c).out.outValid e = false

/-- `rst = 1` on one DEC (10_state.md R32; 70_reset_and_hazards.md R134, R150, both the spec's decision D8; log 11): its
state takes the reset values, no event is output, the byte under the cursor is not consumed, and nothing else changes. -/
def Obligations.ResetMoveDropsTheFrameAndTakesNoTransition : Prop :=
  ∀ (s : State) (ch : Nat) (keep : Bool) (k : Chan) (ms : List Move),
    s.cfg.valid = true → s.work = none → s.moves = .reset ch keep :: ms → s.chans[ch]? = some k →
    ∃ t, step s = .next t ∧
      t = { s with
            chans := s.chans.set ch ⟨⟨.waitHeader, []⟩, if keep then k.input else []⟩
            moves := ms
            out := .reset ch } ∧
      t.out.inReady ch = some false ∧ t.out.frameValid ch = false

/-- 41_decoder.md R96, 60_exceptions.md R132: a step in which no instance is driven, or a channel with no input, changes
nothing of the machine but the move taken: no move left (the model's choice, log 18), an idle move, or `in_valid = 0`. -/
def Obligations.AnIdleStepHoldsTheState : Prop :=
  ∀ (s : State) (ch : Nat) (d : Dec) (ms : List Move), s.cfg.valid = true → s.work = none →
    (s.moves = [] → step s = .next { s with out := .idle }) ∧
    (s.moves = .idle :: ms → step s = .next { s with moves := ms, out := .idle }) ∧
    (s.moves = .clock ch :: ms → s.chans[ch]? = some ⟨d, []⟩ → step s = .next { s with moves := ms, out := .idle })

/-- The state after bring-up is within the invariants, in every configuration of the hardware. -/
def Obligations.ResetIsWithinTheInvariants : Prop :=
  ∀ c : Config, c.valid = true → (State.resetOf c).Wf

/-! ### Invariants -/

/-- Every step keeps the invariants: `dec.len <= M` (10_state.md R18), `dec.len = 0` in WaitHeader (R20), one DEC for each
channel, a working sequence within its bounds. -/
def Obligations.StepKeepsTheInvariants : Prop :=
  ∀ s t : State, s.Wf → step s = .next t → t.Wf

/-- Within the invariants no step stops, whatever the bytes and payloads: only a move that names an instance the hardware
does not have is refused (41_decoder.md R90; log 13). -/
def Obligations.NoStepStopsWithinTheInvariants : Prop :=
  ∀ s : State, s.Wf → (∀ m ∈ s.moves.head?, m.wf s.cfg) → Completes (step s)

/-- 20_memory.md R45, 10_state.md R27, R36 (row ENC): at reset and between steps no part of an encoded sequence exists (the
working sequence of log 7 is absent), and no operation writes the configuration (10_state.md R15). -/
def Obligations.NoCommandIsLeftInProgress : Prop :=
  (∀ c : Config, (State.resetOf c).work = none) ∧
  ∀ s t : State, step s = .next t → t.cfg = s.cfg ∧ (s.work = none → t.work = none)

/-- 10_state.md R22: only a transition on a byte presented to it, or a reset, changes a decoder's state. -/
def Obligations.OnlyATransitionOrAResetChangesADecoder : Prop :=
  ∀ (s t : State) (ch : Nat), step s = .next t → t.dec? ch ≠ s.dec? ch →
    (∃ d b rest ms, s.Presents ch d b rest ms) ∨
    (s.work = none ∧ ∃ keep, s.moves.head? = some (.reset ch keep))

/-- 10_state.md R23: channels share no state: what a step does to channel `ch`, and the frames it emits, depend on that
channel, the configuration and the move alone. -/
def Obligations.AChannelDependsOnNoOther : Prop :=
  ∀ (s s' t t' : State) (ch : Nat),
    s.cfg = s'.cfg → s.work = none → s'.work = none → s.moves.head? = s'.moves.head? →
    s.chans[ch]? = s'.chans[ch]? → step s = .next t → step s' = .next t' →
    t.chans[ch]? = t'.chans[ch]? ∧
    ∃ new new', t.events = s.events ++ new ∧ t'.events = s'.events ++ new' ∧ framesOf ch new = framesOf ch new'

/-- 20_memory.md R48, log 5: two moves that drive different instances (two DECs, two ENCs, or an ENC and a DEC), in either
order, both complete; each shows the same ports in both orders, and they leave the same channels and moves and, for each
channel and each ENC, the same events. -/
def Obligations.InterleavingChangesNoResult : Prop :=
  ∀ (s : State) (m m' : Move) (ms : List Move), s.Wf → s.work = none → m.wf s.cfg → m'.wf s.cfg →
    m.drives ≠ m'.drives →
    ∃ u t u' t',
      step { s with moves := m :: m' :: ms } = .next u ∧ step u = .next t ∧
      step { s with moves := m' :: m :: ms } = .next u' ∧ step u' = .next t' ∧
      u.out = t'.out ∧ t.out = u'.out ∧
      t.chans = t'.chans ∧ t.moves = t'.moves ∧ t.work = t'.work ∧ t.cfg = t'.cfg ∧
      (∀ ch, framesOf ch t.events = framesOf ch t'.events) ∧
      ∀ e, sequencesOf e t.events = sequencesOf e t'.events

/-! ### The driving loop and the fused form (42_stream.md, 41_decoder.md R95) -/

/-- 42_stream.md R98: `n` steps of the unfused machine on one channel are `n` passes of the driving loop over that
channel's input. -/
def Obligations.MachineRunsTheDrivingLoop : Prop :=
  ∀ (n : Nat) (s : State) (ch : Nat) (d : Dec) (bs : List Byte) (ms : List Move),
    s.Wf → s.cfg.fused = false → s.work = none → s.moves = List.replicate n (.clock ch) ++ ms →
    s.chans[ch]? = some ⟨d, bs⟩ →
    ∃ t, run n s = .next t ∧ t.cfg = s.cfg ∧ t.moves = ms ∧
      t.chans = s.chans.set ch
        ⟨(loopPasses s.cfg n ⟨d, [], bs⟩).dec, (loopPasses s.cfg n ⟨d, [], bs⟩).rest⟩ ∧
      t.events = s.events ++ (loopPasses s.cfg n ⟨d, [], bs⟩).frames.map (Event.frameSink ch)

/-- 42_stream.md R99: the loop over `n` bytes ends after at least `n` and at most `2*n` transitions, not before, with every
byte consumed, and gives what the fold of the byte step gives (41_decoder.md R95). -/
def Obligations.TheDrivingLoopEnds : Prop :=
  ∀ (c : Config) (d : Dec) (bs : List Byte), c.valid = true →
    bs.length ≤ transCount c d bs ∧ transCount c d bs ≤ 2 * bs.length ∧
    loopPasses c (transCount c d bs) ⟨d, [], bs⟩ = ⟨(feed c d bs).1, (feed c d bs).2, []⟩ ∧
    ∀ k, k < transCount c d bs → (loopPasses c k ⟨d, [], bs⟩).rest ≠ []

/-- 10_state.md R30, 41_decoder.md R95: one step of the fused form is the byte step, with `in_ready = 1`; it leaves the
channels and events that the unfused form leaves after the transition and its replay. -/
def Obligations.FusedStepIsTransitionAndReplay : Prop :=
  ∀ (s : State) (ch : Nat) (d : Dec) (b : Byte) (rest : List Byte) (ms : List Move),
    s.Presents ch d b rest ms → d.wf s.cfg → s.cfg.fused = true →
    ∃ t, step s = .next t ∧ t.out.inReady ch = some true ∧ t.moves = ms ∧
      t.chans = s.chans.set ch ⟨(byteStep s.cfg d b).1, rest⟩ ∧
      t.events = s.events ++ (byteStep s.cfg d b).2.map (Event.frameSink ch) ∧
      ((transition s.cfg d b).consumed = false →
        ∃ u, run 2
              { s with cfg := { s.cfg with fused := false }, moves := .clock ch :: .clock ch :: ms } = .next u ∧
          u.chans = t.chans ∧ u.events = t.events ∧ u.moves = t.moves)

/-! ### Stream laws (42_stream.md section 4) -/

/-- 42_stream.md R105: the round trip, from WaitHeader and from InMessage. -/
def Obligations.RoundTrip : Prop :=
  ∀ (c : Config) (d : Dec) (p : List Byte), c.valid = true → p.length ≤ c.M → d.state ≠ .afterEscape →
    feed c d (encodeSeq c p) = (⟨.waitHeader, []⟩, [p])

/-- The round trip on the machine: `SEND eN dM` (30_encoding.md R65) emits the sequence and delivers the payload, and
leaves the decoder in WaitHeader, in the fused and in the unfused form. -/
def Obligations.SendDeliversThePayload : Prop :=
  ∀ (s : State) (e ch : Nat) (d : Dec) (p : List Byte),
    s.Wf → s.work = none → s.moves = sendMoves s.cfg e ch p → e < s.cfg.NENC → p.length ≤ s.cfg.M →
    s.chans[ch]? = some ⟨d, []⟩ → d.state ≠ .afterEscape →
    ∃ t, run (2 + 2 * (encodeSeq s.cfg p).length) s = .next t ∧
      t.chans = s.chans.set ch ⟨⟨.waitHeader, []⟩, []⟩ ∧ t.moves = [] ∧
      t.events = s.events ++ [.byteSink e (encodeSeq s.cfg p), .frameSink ch p]

/-- 42_stream.md R106, with the sentinel values of its source and every M that R7 allows. -/
def Obligations.ResyncOnRepeatedStart : Prop :=
  ∀ c : Config, c.valid = true → c.START = 0x12 → c.END = 0x13 → c.ESC = 0x7D →
    feed c Dec.reset
      [c.START, c.START, c.START, c.START, 0x10, c.START, 0x10, 0x11, c.ESC, c.START, 0x42, 0x32, c.ESC, c.ESC,
        c.ESC, c.ESC, 0x46, c.ESC, c.END, 0x64, c.END, 0x45, 0x33]
      = (⟨.waitHeader, []⟩, [[0x10, 0x11, 0x12, 0x42, 0x32, 0x7D, 0x7D, 0x46, 0x13, 0x64]])

/-- 42_stream.md R107, on the machine, fused or not: feeding the chunks in turn, from every state within the invariants
and for every split, ends in the decoder state and with the frames of the whole stream. -/
def Obligations.ChunkBoundariesAreInvisible : Prop :=
  ∀ (s : State) (ch : Nat) (d : Dec) (bss : List (List Byte)) (ms : List Move),
    s.Wf → s.work = none → s.chans[ch]? = some ⟨d, []⟩ → s.moves = bss.flatMap (feedMoves ch) ++ ms →
    ∃ t, run (bss.flatMap (feedMoves ch)).length s = .next t ∧ t.cfg = s.cfg ∧ t.work = none ∧ t.moves = ms ∧
      t.chans = s.chans.set ch ⟨(feed s.cfg d bss.flatten).1, []⟩ ∧
      t.events = s.events ++ (feed s.cfg d bss.flatten).2.map (Event.frameSink ch)

/-- 42_stream.md R108: a frame whose in-frame bytes stand for more than M payload bytes, literal and escaped ones alike, is
dropped at the overflow point, by a literal byte or by an escaped one, with no event; and after either, a well-formed
segment after a gap with no ESC is delivered. -/
def Obligations.OversizedFrameIsDroppedAndDecodingGoesOn : Prop :=
  ∀ (c : Config) (d : Dec) (p : List Byte) (b r : Byte),
    c.valid = true → d.state ≠ .afterEscape → p.length = c.M → isRes c b = false → isRes c r = true →
    feed c d (c.START :: stuff c p ++ [b]) = (⟨.waitHeader, []⟩, []) ∧
    feed c d (c.START :: stuff c p ++ [c.ESC, r]) = (⟨if r = c.START then .inMessage else .waitHeader, []⟩, []) ∧
    ∀ gap q : List Byte, c.ESC ∉ gap → q.length ≤ c.M →
      feed c d (c.START :: stuff c p ++ [b] ++ gap ++ encodeSeq c q)
        = (⟨.waitHeader, []⟩, (feed c ⟨.waitHeader, []⟩ gap).2 ++ [q]) ∧
      feed c d (c.START :: stuff c p ++ [c.ESC, r] ++ gap ++ encodeSeq c q)
        = (⟨.waitHeader, []⟩,
            (feed c ⟨if r = c.START then .inMessage else .waitHeader, []⟩ gap).2 ++ [q])

/-- 42_stream.md R110: a presented START opens a frame from WaitHeader, from InMessage, and from AfterEscape when full;
from AfterEscape with room it is an escaped literal. -/
def Obligations.StartOpensAFrameExceptAfterEscapeWithRoom : Prop :=
  ∀ (c : Config) (d : Dec), c.valid = true → d.wf c →
    ((d.state ≠ .afterEscape ∨ d.len = c.M) → byteStep c d c.START = (⟨.inMessage, []⟩, [])) ∧
    (d.state = .afterEscape → d.len < c.M → byteStep c d c.START = (⟨.inMessage, d.acc ++ [c.START]⟩, []))

/-- 42_stream.md R111 and R112: frames with START-free noise before each and after the last are delivered, all and only
they, in order. -/
def Obligations.ConcatenatedFramesAreDeliveredInOrder : Prop :=
  ∀ (c : Config) (gps : List (List Byte × List Byte)) (tail : List Byte), c.valid = true →
    (∀ gp ∈ gps, c.START ∉ gp.1 ∧ gp.2.length ≤ c.M) → c.START ∉ tail →
    feed c Dec.reset (gps.flatMap (fun gp => gp.1 ++ encodeSeq c gp.2) ++ tail)
      = (⟨.waitHeader, []⟩, gps.map Prod.snd)

/-- 42_stream.md R113: the flush sequence works from every state within the invariants, and no sequence of one or two bytes
does. -/
def Obligations.FlushNeedsThreeBytes : Prop :=
  ∀ c : Config, c.valid = true →
    (∀ (d : Dec) (x : Byte), d.wf c → isRes c x = false →
      feed c d [x, c.ESC, x] = (⟨.waitHeader, []⟩, [])) ∧
    ∀ bs : List Byte, bs.length ≤ 2 → ∃ d : Dec, d.wf c ∧ feed c d bs ≠ (⟨.waitHeader, []⟩, [])

/-- 42_stream.md R114, 10_state.md R21, both ways round: over any stream from reset, every delivered frame has at most M
bytes and its own encoding stands, whole, in the stream; and the accumulator of a frame in progress holds exactly the
payload of the bytes since the START that opened it. -/
def Obligations.DeliveredFramesStandEncodedInTheStream : Prop :=
  ∀ (c : Config) (bs : List Byte), c.valid = true →
    (∀ f ∈ (feed c Dec.reset bs).2, f.length ≤ c.M ∧ ∃ pre post, bs = pre ++ encodeSeq c f ++ post) ∧
    ((feed c Dec.reset bs).1.state = .inMessage →
      ∃ pre, bs = pre ++ c.START :: stuff c (feed c Dec.reset bs).1.acc) ∧
    ((feed c Dec.reset bs).1.state = .afterEscape →
      ∃ pre, bs = pre ++ c.START :: stuff c (feed c Dec.reset bs).1.acc ++ [c.ESC])

/-- 41_decoder.md R94: from reset every `(InMessage, n)` and `(AfterEscape, n)` with `n <= M` is reached, as the rule says,
and every state reached is within the invariants, so no `(WaitHeader, n)` with `n > 0` is. -/
def Obligations.ReachableDecoderStates : Prop :=
  ∀ c : Config, c.valid = true →
    (∀ lits : List Byte, (∀ x ∈ lits, isRes c x = false) → lits.length ≤ c.M →
      feed c Dec.reset (c.START :: lits) = (⟨.inMessage, lits⟩, []) ∧
      feed c Dec.reset (c.START :: lits ++ [c.ESC]) = (⟨.afterEscape, lits⟩, [])) ∧
    ∀ bs : List Byte, (feed c Dec.reset bs).1.wf c

/-! ### The host's feed (42_stream.md section 1) -/

/-- 42_stream.md R97, 70_reset_and_hazards.md R140: a feed's bytes come after those its channel has not yet consumed, and
starting a feed changes nothing else (log 4). -/
def Obligations.FeedAddsItsBytesAfterThoseNotYetConsumed : Prop :=
  ∀ (s : State) (ch : Nat) (bytes : List Byte) (k : Chan) (ms : List Move),
    s.cfg.valid = true → s.work = none → s.moves = .feed ch bytes :: ms → s.chans[ch]? = some k →
    step s = .next
      { s with
        chans := s.chans.set ch ⟨k.dec, k.input ++ bytes⟩
        moves := ms
        out := .idle }
end

