-- ==== Sys2Proof/Laws/Decode.lean ====
section
/-! SUPPORT. The fields of a decode word, and that the codes are read back as they were written. -/

namespace Sys2Proof

@[simp] theorem ByteClass.ofCode_code (k : ByteClass) : ByteClass.ofCode k.code = k := by cases k <;> rfl

@[simp] theorem ByteClass.code_ofCode : ∀ w : BitVec 2, (ByteClass.ofCode w).code = w := by decide

theorem ByteClass.code_injective {a b : ByteClass} (h : a.code = b.code) : a = b := by
  rw [← ByteClass.ofCode_code a, h, ByteClass.ofCode_code]

@[simp] theorem DecState.ofCode?_code (st : DecState) : DecState.ofCode? st.code = some st := by cases st <;> rfl

@[simp] theorem dwFull_dwOf (f : Bool) (st : DecState) (k : ByteClass) : dwFull (dwOf f st k) = f := by
  cases f <;> cases st <;> cases k <;> rfl

@[simp] theorem dwState_dwOf (f : Bool) (st : DecState) (k : ByteClass) : dwState (dwOf f st k) = st.code := by
  cases f <;> cases st <;> cases k <;> rfl

@[simp] theorem dwCls_dwOf (f : Bool) (st : DecState) (k : ByteClass) : dwCls (dwOf f st k) = k := by
  cases f <;> cases st <;> cases k <;> rfl

/-- The operation that the fields of a decode word select: the map of 30_encoding.md R59 with its 24 words. -/
def dwInstr (f : Bool) : DecState → ByteClass → Instr
  | .waitHeader, .START => .whStart f
  | .waitHeader, .OTHER => .whDiscard f .OTHER
  | .waitHeader, .END => .whDiscard f .END
  | .waitHeader, .ESC => .whDiscard f .ESC
  | .inMessage, .ESC => .imEsc f
  | .inMessage, .END => .imEnd f
  | .inMessage, .START => .imResyncStart f
  | .inMessage, .OTHER => if f then .imOverflow else .imAppend
  | .afterEscape, .OTHER => .aeBadEscape f
  | .afterEscape, .START => if f then .aeOverflow .START else .aeAppend .START
  | .afterEscape, .END => if f then .aeOverflow .END else .aeAppend .END
  | .afterEscape, .ESC => if f then .aeOverflow .ESC else .aeAppend .ESC

/-- The decoder reads every word that a state can form. -/
@[simp] theorem decode_dwOf (f : Bool) (st : DecState) (k : ByteClass) :
    decode (.dw (dwOf f st k)) = .ok (dwInstr f st k) := by
  cases f <;> cases st <;> cases k <;> rfl

/-- The operation that the class of a payload byte selects (30_encoding.md R61). -/
@[simp] theorem decode_ew_code (k : ByteClass) :
    decode (.ew k.code) = .ok (if k = .OTHER then .encLit else .encEsc k) := by
  cases k <;> rfl

theorem decode_dw_some {w : BitVec 5} {i : Instr} (h : firstRow dwRows w = some i) : decode (.dw w) = .ok i := by
  show (match firstRow dwRows w with | some i => Except.ok i | none => .error Reject.stateCode11) = _
  rw [h]

theorem decode_dw_none {w : BitVec 5} (h : firstRow dwRows w = none) : decode (.dw w) = .error .stateCode11 := by
  show (match firstRow dwRows w with | some i => Except.ok i | none => .error Reject.stateCode11) = _
  rw [h]

@[simp] theorem decode_cmd_one : decode (.cmd 1#1) = .ok .encode := rfl

end Sys2Proof
end

