-- ==== Sys2Proof/Laws/Memory.lean ====
section
/-! SUPPORT. The accumulator: what a read gives after an append and after a clear, and that every operation keeps its form
(20_memory.md R37 to R39). -/

namespace Sys2Proof.Machine

theorem memRead_ok_iff {d : Dec} {i : Nat} {b : Byte} : memRead d i = .ok b ↔ d.acc[i]? = some b := by
  unfold memRead
  split <;> rename_i h <;> simp [h]

/-- A byte holds no value at an index `>= dec.len` (10_state.md R19). -/
theorem memRead_beyond {d : Dec} {i : Nat} (h : d.len ≤ i) : memRead d i = .error .readNoValue := by
  simp [memRead, List.getElem?_eq_none h]

theorem memReads_eq (d : Dec) : ∀ (n i : Nat), i + n ≤ d.len → memReads d i n = .ok ((d.acc.drop i).take n)
  | 0, _, _ => by simp [memReads]
  | n + 1, i, h => by
    have hi : i < d.acc.length := by simp only [Dec.len] at h; omega
    have hr : memRead d i = .ok d.acc[i] := memRead_ok_iff.mpr (List.getElem?_eq_getElem hi)
    simp only [memReads, hr, memReads_eq d n (i + 1) (by omega)]
    rw [List.drop_eq_getElem_cons hi, List.take_succ_cons]

/-- `AccSeq` reads only bytes that hold a value, and gives them all in order. -/
@[simp] theorem accSeq_eq (d : Dec) : accSeq d = .ok d.acc := by
  simp [accSeq, memReads_eq d d.len 0 (by omega), Dec.len]

theorem accAppend_ok {c : Config} {d : Dec} (b : Byte) (h : d.len < c.M) :
    accAppend c d b = .ok { d with acc := d.acc ++ [b] } := by simp [accAppend, h]

theorem accAppend_full {c : Config} {d : Dec} (b : Byte) (h : c.M ≤ d.len) :
    accAppend c d b = .error .accAppendNoRoom := by
  simp [accAppend, Nat.not_lt.mpr h]

/-- Everything an append that succeeds has done (20_memory.md R38). -/
theorem accAppend_next {c : Config} {d d' : Dec} {b : Byte} (h : accAppend c d b = .ok d') :
    d.len < c.M ∧ d' = { d with acc := d.acc ++ [b] } := by
  unfold accAppend at h
  split at h
  · next hm => exact ⟨hm, (Except.ok.inj h).symm⟩
  · cases h

theorem memRead_append_same {c : Config} {d d' : Dec} {b : Byte} (h : accAppend c d b = .ok d') :
    memRead d' d.len = .ok b := by
  obtain ⟨-, rfl⟩ := accAppend_next h
  simp [memRead_ok_iff, Dec.len]

theorem memRead_append_other {c : Config} {d d' : Dec} {b : Byte} {i : Nat} (h : accAppend c d b = .ok d')
    (hi : i ≠ d.len) : memRead d' i = memRead d i := by
  obtain ⟨-, rfl⟩ := accAppend_next h
  simp only [memRead, Dec.len, ne_eq] at *
  rcases Nat.lt_or_ge i d.acc.length with hlt | hge
  · rw [List.getElem?_append_left hlt]
  · rw [List.getElem?_eq_none (by simp; omega), List.getElem?_eq_none hge]

@[simp] theorem memRead_clear (d : Dec) (i : Nat) : memRead (accClear d) i = .error .readNoValue :=
  memRead_beyond (by simp [accClear, Dec.len])

theorem accAppend_wf {c : Config} {d d' : Dec} {b : Byte} (h : accAppend c d b = .ok d') : Memory.wf c d'.acc := by
  obtain ⟨hm, rfl⟩ := accAppend_next h
  simp only [Memory.wf, Dec.len, List.length_append, List.length_singleton] at *
  omega

theorem accClear_wf (c : Config) (d : Dec) : Memory.wf c (accClear d).acc := by simp [Memory.wf, accClear]

theorem reset_acc_wf (c : Config) : Memory.wf c Dec.reset.acc := by simp [Memory.wf, Dec.reset]

end Sys2Proof.Machine
end

