-- ==== Sys2Proof/Laws/Operands.lean ====
section
/-! SUPPORT. The classes of a byte, when each port presents an operand, and the operation a state selects. -/

namespace Sys2Proof.Machine

/-! ### Configurations -/

theorem valid_iff {c : Config} : c.valid = true ↔ c.START ≠ c.END ∧ c.START ≠ c.ESC ∧ c.END ≠ c.ESC ∧ 10 ≤ c.M ∧
    c.M + 1 < 2 ^ c.LEN_W ∧ 1 ≤ c.NCHAN ∧ 1 ≤ c.NENC := by
  simp [Config.valid]

/-! ### Classes -/

theorem isRes_iff {c : Config} {b : Byte} : isRes c b = true ↔ b = c.START ∨ b = c.END ∨ b = c.ESC := by
  simp [isRes, or_assoc]

theorem not_isRes_iff {c : Config} {b : Byte} : isRes c b = false ↔ b ≠ c.START ∧ b ≠ c.END ∧ b ≠ c.ESC := by
  simp [isRes, and_assoc]

theorem cls_eq_OTHER {c : Config} {b : Byte} : cls c b = .OTHER ↔ isRes c b = false := by
  rw [not_isRes_iff]
  unfold cls
  split_ifs <;> simp_all

theorem cls_eq_START {c : Config} {b : Byte} : cls c b = .START ↔ b = c.START := by
  unfold cls
  split_ifs <;> simp_all

theorem cls_eq_END {c : Config} (h : c.valid = true) {b : Byte} : cls c b = .END ↔ b = c.END := by
  obtain ⟨h1, -, h3, -⟩ := valid_iff.mp h
  unfold cls
  split_ifs <;> simp_all [Ne.symm h1]

theorem cls_eq_ESC {c : Config} (h : c.valid = true) {b : Byte} : cls c b = .ESC ↔ b = c.ESC := by
  obtain ⟨-, h2, h3, -⟩ := valid_iff.mp h
  unfold cls
  split_ifs <;> simp_all [Ne.symm h2, Ne.symm h3]

@[simp] theorem cls_START (c : Config) : cls c c.START = .START := by simp [cls]

theorem cls_END {c : Config} (h : c.valid = true) : cls c c.END = .END := (cls_eq_END h).mpr rfl

theorem cls_ESC {c : Config} (h : c.valid = true) : cls c c.ESC = .ESC := (cls_eq_ESC h).mpr rfl

@[simp] theorem isRes_START (c : Config) : isRes c c.START = true := by simp [isRes]
@[simp] theorem isRes_END (c : Config) : isRes c c.END = true := by simp [isRes]
@[simp] theorem isRes_ESC (c : Config) : isRes c c.ESC = true := by simp [isRes]

/-- Of the four smallest byte values, one is not reserved. -/
@[simp] theorem isRes_smallestLit (c : Config) : isRes c (smallestLit c) = false := by
  unfold smallestLit
  split_ifs with h0 h1 h2
  · exact h0
  · exact h1
  · exact h2
  · simp only [Bool.not_eq_false, isRes_iff] at h0 h1 h2
    rw [not_isRes_iff]
    refine ⟨?_, ?_, ?_⟩ <;> intro h3 <;> rw [← h3] at h0 h1 h2 <;>
      rcases h0 with h0 | h0 | h0 <;> rcases h1 with h1 | h1 | h1 <;> rcases h2 with h2 | h2 | h2 <;>
        first
          | exact absurd h0 (by decide)
          | exact absurd h1 (by decide)
          | exact absurd h2 (by decide)
          | exact absurd (h0.trans h1.symm) (by decide)
          | exact absurd (h0.trans h2.symm) (by decide)
          | exact absurd (h1.trans h2.symm) (by decide)

theorem cls_byteOf {c : Config} (h : c.valid = true) (k : ByteClass) : cls c (byteOf c k) = k := by
  cases k
  · exact cls_eq_OTHER.mpr (isRes_smallestLit c)
  · exact cls_START c
  · exact cls_END h
  · exact cls_ESC h

/-! ### Ports -/

theorem presented_iff {s : State} {p : Presented} :
    s.presented = some p ↔ s.work = none ∧ s.moves = .clock p.ch :: p.moves ∧
      s.chans[p.ch]? = some { dec := p.dec, input := p.byte :: p.rest } := by
  unfold State.presented
  constructor
  · intro h
    split at h
    · next hw hm =>
      split at h
      · next hc =>
        obtain rfl := Option.some.inj h
        exact ⟨hw, hm, hc⟩
      · cases h
    · cases h
  · rintro ⟨hw, hm, hc⟩
    simp [hw, hm, hc]

theorem request_iff {s : State} {r : Request} :
    s.request = some r ↔ s.work = none ∧ s.moves = .encode r.enc r.payload :: r.moves ∧ r.enc < s.cfg.NENC := by
  unfold State.request
  constructor
  · intro h
    split at h
    · next hw hm =>
      split at h
      · next he =>
        obtain rfl := Option.some.inj h
        exact ⟨hw, hm, he⟩
      · cases h
    · cases h
  · rintro ⟨hw, hm, he⟩
    simp [hw, hm, he]

theorem payloadByte_iff {s : State} {b : Byte} {w : EncWork} :
    s.payloadByte = some (b, w) ↔ s.work = some { w with rest := b :: w.rest } := by
  unfold State.payloadByte
  constructor
  · intro h
    split at h
    · next hw =>
      obtain ⟨rfl, rfl⟩ := Prod.mk.inj (Option.some.inj h)
      exact hw
    · cases h
  · intro h
    simp [h]

theorem payloadByte_none_of_work {s : State} (h : s.work = none) : s.payloadByte = none := by
  simp [State.payloadByte, h]

theorem request_none_of_presented {s : State} {p : Presented} (h : s.presented = some p) : s.request = none := by
  simp [State.request, (presented_iff.mp h).2.1]

theorem presented_none_of_request {s : State} {r : Request} (h : s.request = some r) : s.presented = none := by
  simp [State.presented, (request_iff.mp h).2.1]

/-! ### The selected operation -/

theorem fetch_of_presented {s : State} {p : Presented} (h : s.presented = some p) :
    s.fetch = some (.dw (decWord s.cfg p.dec p.byte)) := by
  simp [State.fetch, payloadByte_none_of_work (presented_iff.mp h).1, request_none_of_presented h, h]

theorem fetch_of_request {s : State} {r : Request} (h : s.request = some r) : s.fetch = some (.cmd 1#1) := by
  simp [State.fetch, payloadByte_none_of_work (request_iff.mp h).1, h]

theorem fetch_of_payloadByte {s : State} {b : Byte} {w : EncWork} (h : s.payloadByte = some (b, w)) :
    s.fetch = some (.ew (cls s.cfg b).code) := by
  simp [State.fetch, h]

/-- The three ways a state forms a word, and the one way it forms none. -/
theorem fetch_cases (s : State) :
    (∃ b w, s.payloadByte = some (b, w)) ∨ (∃ r, s.request = some r) ∨ (∃ p, s.presented = some p) ∨
      (s.fetch = none ∧ s.payloadByte = none ∧ s.request = none ∧ s.presented = none) := by
  rcases hb : s.payloadByte with _ | ⟨b, w⟩
  · rcases hr : s.request with _ | r
    · rcases hp : s.presented with _ | p
      · exact .inr (.inr (.inr ⟨by simp [State.fetch, hb, hr, hp], rfl, rfl, rfl⟩))
      · exact .inr (.inr (.inl ⟨p, rfl⟩))
    · exact .inr (.inl ⟨r, rfl⟩)
  · exact .inl ⟨b, w, rfl⟩

theorem selected_of_presented {s : State} {p : Presented} (h : s.presented = some p) :
    s.selected = some (dwInstr (full s.cfg p.dec) p.dec.state (cls s.cfg p.byte)) := by
  simp [State.selected, fetch_of_presented h, decWord, Except.toOption]

theorem selected_of_request {s : State} {r : Request} (h : s.request = some r) : s.selected = some .encode := by
  simp [State.selected, fetch_of_request h, Except.toOption]

theorem selected_of_payloadByte {s : State} {b : Byte} {w : EncWork} (h : s.payloadByte = some (b, w)) :
    s.selected = some (if isRes s.cfg b then .encEsc (cls s.cfg b) else .encLit) := by
  simp only [State.selected, fetch_of_payloadByte h, Option.bind_some, decode_ew_code, Except.toOption, cls_eq_OTHER]
  cases isRes s.cfg b <;> simp

end Sys2Proof.Machine
end

