-- ==== Sys2Proof/Laws/State.lean ====
section
/-! SUPPORT. One lemma per field of State per update of it, so that no later proof unfolds a record update. -/

namespace Sys2Proof.Machine

@[simp] theorem State.commit_cfg (s : State) (p : Presented) (t : Trans) :
    (s.commit p t).cfg = s.cfg := rfl

@[simp] theorem State.commit_chans (s : State) (p : Presented) (t : Trans) :
    (s.commit p t).chans = s.chans.set p.ch { dec := t.dec, input := if t.consumed then p.rest else p.byte :: p.rest } := rfl

@[simp] theorem State.commit_work (s : State) (p : Presented) (t : Trans) :
    (s.commit p t).work = s.work := rfl

@[simp] theorem State.commit_moves (s : State) (p : Presented) (t : Trans) :
    (s.commit p t).moves = p.moves := rfl

@[simp] theorem State.commit_out (s : State) (p : Presented) (t : Trans) :
    (s.commit p t).out = .dec p.ch t.consumed t.frame := rfl

@[simp] theorem State.commit_events (s : State) (p : Presented) (t : Trans) :
    (s.commit p t).events = s.events ++ frameEvents p.ch t.frame := rfl

@[simp] theorem State.respondOk_cfg (s : State) (e : Nat) (q : List Byte) (ms : List Move) :
    (s.respondOk e q ms).cfg = s.cfg := rfl

@[simp] theorem State.respondOk_chans (s : State) (e : Nat) (q : List Byte) (ms : List Move) :
    (s.respondOk e q ms).chans = s.chans := rfl

@[simp] theorem State.respondOk_work (s : State) (e : Nat) (q : List Byte) (ms : List Move) :
    (s.respondOk e q ms).work = none := rfl

@[simp] theorem State.respondOk_moves (s : State) (e : Nat) (q : List Byte) (ms : List Move) :
    (s.respondOk e q ms).moves = ms := rfl

@[simp] theorem State.respondOk_out (s : State) (e : Nat) (q : List Byte) (ms : List Move) :
    (s.respondOk e q ms).out = .enc e .ok (some q) := rfl

@[simp] theorem State.respondOk_events (s : State) (e : Nat) (q : List Byte) (ms : List Move) :
    (s.respondOk e q ms).events = s.events ++ [.byteSink e q] := rfl

@[simp] theorem State.raiseFrameTooLarge_cfg (s : State) (e : Nat) (ms : List Move) :
    (s.raiseFrameTooLarge e ms).cfg = s.cfg := rfl

@[simp] theorem State.raiseFrameTooLarge_chans (s : State) (e : Nat) (ms : List Move) :
    (s.raiseFrameTooLarge e ms).chans = s.chans := rfl

@[simp] theorem State.raiseFrameTooLarge_work (s : State) (e : Nat) (ms : List Move) :
    (s.raiseFrameTooLarge e ms).work = s.work := rfl

@[simp] theorem State.raiseFrameTooLarge_moves (s : State) (e : Nat) (ms : List Move) :
    (s.raiseFrameTooLarge e ms).moves = ms := rfl

@[simp] theorem State.raiseFrameTooLarge_out (s : State) (e : Nat) (ms : List Move) :
    (s.raiseFrameTooLarge e ms).out = .enc e .frameTooLarge none := rfl

@[simp] theorem State.raiseFrameTooLarge_events (s : State) (e : Nat) (ms : List Move) :
    (s.raiseFrameTooLarge e ms).events = s.events := rfl

@[simp] theorem State.pushWork_cfg (s : State) (w : EncWork) (q : List Byte) :
    (s.pushWork w q).cfg = s.cfg := rfl

@[simp] theorem State.pushWork_chans (s : State) (w : EncWork) (q : List Byte) :
    (s.pushWork w q).chans = s.chans := rfl

@[simp] theorem State.pushWork_work (s : State) (w : EncWork) (q : List Byte) :
    (s.pushWork w q).work = some { w with buf := w.buf ++ q } := rfl

@[simp] theorem State.pushWork_moves (s : State) (w : EncWork) (q : List Byte) :
    (s.pushWork w q).moves = s.moves := rfl

@[simp] theorem State.pushWork_out (s : State) (w : EncWork) (q : List Byte) :
    (s.pushWork w q).out = .idle := rfl

@[simp] theorem State.pushWork_events (s : State) (w : EncWork) (q : List Byte) :
    (s.pushWork w q).events = s.events := rfl

@[simp] theorem State.beginWork_cfg (s : State) (r : Request) :
    (s.beginWork r).cfg = s.cfg := rfl

@[simp] theorem State.beginWork_chans (s : State) (r : Request) :
    (s.beginWork r).chans = s.chans := rfl

@[simp] theorem State.beginWork_work (s : State) (r : Request) :
    (s.beginWork r).work = some { enc := r.enc, rest := r.payload, buf := [s.cfg.START] } := rfl

@[simp] theorem State.beginWork_moves (s : State) (r : Request) :
    (s.beginWork r).moves = r.moves := rfl

@[simp] theorem State.beginWork_out (s : State) (r : Request) :
    (s.beginWork r).out = s.out := rfl

@[simp] theorem State.beginWork_events (s : State) (r : Request) :
    (s.beginWork r).events = s.events := rfl

@[simp] theorem State.finishWork_cfg (s : State) (w : EncWork) :
    (s.finishWork w).cfg = s.cfg := rfl

@[simp] theorem State.finishWork_chans (s : State) (w : EncWork) :
    (s.finishWork w).chans = s.chans := rfl

@[simp] theorem State.finishWork_work (s : State) (w : EncWork) :
    (s.finishWork w).work = none := rfl

@[simp] theorem State.finishWork_moves (s : State) (w : EncWork) :
    (s.finishWork w).moves = s.moves := rfl

@[simp] theorem State.finishWork_out (s : State) (w : EncWork) :
    (s.finishWork w).out = .enc w.enc .ok (some (w.buf ++ [s.cfg.END])) := rfl

@[simp] theorem State.finishWork_events (s : State) (w : EncWork) :
    (s.finishWork w).events = s.events ++ [.byteSink w.enc (w.buf ++ [s.cfg.END])] := rfl

@[simp] theorem State.idleStep_cfg (s : State) (ms : List Move) :
    (s.idleStep ms).cfg = s.cfg := rfl

@[simp] theorem State.idleStep_chans (s : State) (ms : List Move) :
    (s.idleStep ms).chans = s.chans := rfl

@[simp] theorem State.idleStep_work (s : State) (ms : List Move) :
    (s.idleStep ms).work = s.work := rfl

@[simp] theorem State.idleStep_moves (s : State) (ms : List Move) :
    (s.idleStep ms).moves = ms := rfl

@[simp] theorem State.idleStep_out (s : State) (ms : List Move) :
    (s.idleStep ms).out = .idle := rfl

@[simp] theorem State.idleStep_events (s : State) (ms : List Move) :
    (s.idleStep ms).events = s.events := rfl

@[simp] theorem State.resetChan_cfg (s : State) (ch : Nat) (k : Chan) (keep : Bool) (ms : List Move) :
    (s.resetChan ch k keep ms).cfg = s.cfg := rfl

@[simp] theorem State.resetChan_chans (s : State) (ch : Nat) (k : Chan) (keep : Bool) (ms : List Move) :
    (s.resetChan ch k keep ms).chans = s.chans.set ch { dec := Dec.reset, input := if keep then k.input else [] } := rfl

@[simp] theorem State.resetChan_work (s : State) (ch : Nat) (k : Chan) (keep : Bool) (ms : List Move) :
    (s.resetChan ch k keep ms).work = s.work := rfl

@[simp] theorem State.resetChan_moves (s : State) (ch : Nat) (k : Chan) (keep : Bool) (ms : List Move) :
    (s.resetChan ch k keep ms).moves = ms := rfl

@[simp] theorem State.resetChan_out (s : State) (ch : Nat) (k : Chan) (keep : Bool) (ms : List Move) :
    (s.resetChan ch k keep ms).out = .reset ch := rfl

@[simp] theorem State.resetChan_events (s : State) (ch : Nat) (k : Chan) (keep : Bool) (ms : List Move) :
    (s.resetChan ch k keep ms).events = s.events := rfl

@[simp] theorem State.startFeed_cfg (s : State) (ch : Nat) (k : Chan) (q : List Byte) (ms : List Move) :
    (s.startFeed ch k q ms).cfg = s.cfg := rfl

@[simp] theorem State.startFeed_chans (s : State) (ch : Nat) (k : Chan) (q : List Byte) (ms : List Move) :
    (s.startFeed ch k q ms).chans = s.chans.set ch { k with input := k.input ++ q } := rfl

@[simp] theorem State.startFeed_work (s : State) (ch : Nat) (k : Chan) (q : List Byte) (ms : List Move) :
    (s.startFeed ch k q ms).work = s.work := rfl

@[simp] theorem State.startFeed_moves (s : State) (ch : Nat) (k : Chan) (q : List Byte) (ms : List Move) :
    (s.startFeed ch k q ms).moves = ms := rfl

@[simp] theorem State.startFeed_out (s : State) (ch : Nat) (k : Chan) (q : List Byte) (ms : List Move) :
    (s.startFeed ch k q ms).out = .idle := rfl

@[simp] theorem State.startFeed_events (s : State) (ch : Nat) (k : Chan) (q : List Byte) (ms : List Move) :
    (s.startFeed ch k q ms).events = s.events := rfl

@[simp] theorem State.presentAgain_cfg (s : State) (ch : Nat) :
    (s.presentAgain ch).cfg = s.cfg := rfl

@[simp] theorem State.presentAgain_chans (s : State) (ch : Nat) :
    (s.presentAgain ch).chans = s.chans := rfl

@[simp] theorem State.presentAgain_work (s : State) (ch : Nat) :
    (s.presentAgain ch).work = s.work := rfl

@[simp] theorem State.presentAgain_moves (s : State) (ch : Nat) :
    (s.presentAgain ch).moves = .clock ch :: s.moves := rfl

@[simp] theorem State.presentAgain_out (s : State) (ch : Nat) :
    (s.presentAgain ch).out = s.out := rfl

@[simp] theorem State.presentAgain_events (s : State) (ch : Nat) :
    (s.presentAgain ch).events = s.events := rfl

end Sys2Proof.Machine
end

