-- ==== Sys2Proof/Laws/Exec.lean ====
section
/-! SUPPORT. One spec lemma per shared operation and for `exec` as a whole: what it can do when it answers next. -/

namespace Sys2Proof.Machine

theorem ifSelected_eq {i : Instr} {s : State} (hv : s.cfg.valid = true) (hi : s.selected = some i)
    (o : Host.Outcome State Fault Refusal) : ifSelected i s o = o := by
  simp [ifSelected, hv, hi]

theorem ifSelected_next {i : Instr} {s t : State} {o : Host.Outcome State Fault Refusal}
    (h : ifSelected i s o = .next t) : s.cfg.valid = true ∧ s.selected = some i ∧ o = .next t := by
  unfold ifSelected at h
  split_ifs at h with hv hi
  exact ⟨hv, hi, h⟩

theorem onPresented_ok {s : State} {p : Presented} {f : Config → Dec → Byte → Except Fault Trans} {t : Trans}
    (hp : s.presented = some p) (hf : f s.cfg p.dec p.byte = .ok t) : onPresented s f = .next (s.commit p t) := by
  simp [onPresented, hp, hf]

theorem onPresented_error {s : State} {p : Presented} {f : Config → Dec → Byte → Except Fault Trans} {e : Fault}
    (hp : s.presented = some p) (hf : f s.cfg p.dec p.byte = .error e) : onPresented s f = .fault e := by
  simp [onPresented, hp, hf]

theorem onPresented_next {s s' : State} {f : Config → Dec → Byte → Except Fault Trans}
    (h : onPresented s f = .next s') :
    ∃ p t, s.presented = some p ∧ f s.cfg p.dec p.byte = .ok t ∧ s' = s.commit p t := by
  unfold onPresented at h
  split at h
  · cases h
  · next p hp =>
    split at h
    · cases h
    · next t ht => exact ⟨p, t, hp, ht, (Host.Outcome.next.inj h).symm⟩

/-- The effect of the transition that each operation of the decoder performs; the other operations have none. -/
def effectOf : Instr → Option (Config → Dec → Byte → Except Fault Trans)
  | .encode => none
  | .encLit => none
  | .encEsc _ => none
  | .whStart _ => some whStart
  | .whDiscard _ _ => some whDiscard
  | .imEsc _ => some imEsc
  | .imEnd _ => some imEnd
  | .imResyncStart _ => some imResyncStart
  | .imAppend => some imAppend
  | .imOverflow => some imOverflow
  | .aeBadEscape _ => some aeBadEscape
  | .aeAppend _ => some aeAppend
  | .aeOverflow _ => some aeOverflow

theorem effectOf_dwInstr (f : Bool) (st : DecState) (k : ByteClass) : ∃ g, effectOf (dwInstr f st k) = some g := by
  cases f <;> cases st <;> cases k <;> exact ⟨_, rfl⟩

theorem exec_eq_of_effect {i : Instr} {f : Config → Dec → Byte → Except Fault Trans} (h : effectOf i = some f)
    (s : State) : exec i s = ifSelected i s (onPresented s f) := by
  cases i <;> simp only [effectOf, Option.some.injEq, reduceCtorEq] at h <;> subst h <;> rfl

/-- The selected operation has the effect of the whole transition function wherever `dec.len <= M` (41_decoder.md R57,
R89). -/
theorem effect_transition {c : Config} (hv : c.valid = true) {d : Dec} (b : Byte) (hd : d.len ≤ c.M) :
    ∃ f, effectOf (dwInstr (full c d) d.state (cls c b)) = some f ∧ f c d b = .ok (transition c d b) := by
  obtain ⟨h1, h2, h3, -⟩ := valid_iff.mp hv
  have hlt : d.len ≠ c.M → d.len < c.M := fun h => lt_of_le_of_ne hd h
  rcases d with ⟨st, acc⟩
  simp only [full] at *
  rcases st
  all_goals
    by_cases hs : b = c.START
    on_goal 2 => by_cases he : b = c.END
    on_goal 3 => by_cases hx : b = c.ESC
  all_goals
    by_cases hf : acc.length = c.M
    all_goals
      simp_all [cls, isRes, dwInstr, effectOf, transition, whStart, whDiscard, imEsc, imEnd, imResyncStart, imAppend,
        imOverflow, aeBadEscape, aeAppend, aeOverflow, accClear, resync, accAppend, Dec.len]

theorem exec_of_presented {s : State} {p : Presented} (hv : s.cfg.valid = true) (hp : s.presented = some p)
    (hd : p.dec.len ≤ s.cfg.M) :
    ∃ i, s.selected = some i ∧ exec i s = .next (s.commit p (transition s.cfg p.dec p.byte)) := by
  obtain ⟨f, hf, ht⟩ := effect_transition hv p.byte hd
  refine ⟨_, selected_of_presented hp, ?_⟩
  rw [exec_eq_of_effect hf, ifSelected_eq hv (selected_of_presented hp), onPresented_ok hp ht]

/-- Whatever the accumulator holds, an operation that takes a next state has the effect of the whole transition
function. -/
theorem effect_next {c : Config} (hv : c.valid = true) {d : Dec} {b : Byte} {f : Config → Dec → Byte → Except Fault Trans}
    {t : Trans} (hf : effectOf (dwInstr (full c d) d.state (cls c b)) = some f) (ht : f c d b = .ok t) :
    t = transition c d b := by
  rcases Nat.lt_or_ge c.M d.len with hgt | hle
  · obtain ⟨h1, h2, h3, -⟩ := valid_iff.mp hv
    rcases d with ⟨st, acc⟩
    have hne : acc.length ≠ c.M := Nat.ne_of_gt hgt
    have hnl : ¬ acc.length < c.M := Nat.lt_asymm hgt
    rcases st
    all_goals
      by_cases hs : b = c.START
      on_goal 2 => by_cases he : b = c.END
      on_goal 3 => by_cases hx : b = c.ESC
    all_goals
      simp_all [full, cls, isRes, dwInstr, effectOf, transition]
    all_goals
      subst hf
      simp_all [whStart, whDiscard, imEsc, imEnd, imResyncStart, imAppend, aeBadEscape, aeAppend, accClear, resync,
        accAppend, Dec.len]
    all_goals
      first
        | exact ht.symm
        | (rw [if_neg (by omega)] at ht
           cases ht)
  · obtain ⟨g, hg, hg'⟩ := effect_transition hv b hle
    obtain rfl := Option.some.inj (hf.symm.trans hg)
    exact Except.ok.inj (ht.symm.trans hg')

theorem exec_encode_eq (s : State) {r : Request} (hv : s.cfg.valid = true) (hr : s.request = some r) :
    exec .encode s = .next (if s.cfg.M < r.payload.length then s.raiseFrameTooLarge r.enc r.moves
      else s.respondOk r.enc (encodeSeq s.cfg r.payload) r.moves) := by
  show execEncode s = _
  simp only [execEncode, ifSelected_eq hv (selected_of_request hr), hr]
  split_ifs <;> rfl

theorem exec_of_payloadByte {s : State} {b : Byte} {w : EncWork} (hv : s.cfg.valid = true)
    (hb : s.payloadByte = some (b, w)) :
    ∃ i, s.selected = some i ∧ exec i s = .next (s.pushWork w (encByte s.cfg b)) := by
  have hs := selected_of_payloadByte hb
  refine ⟨_, hs, ?_⟩
  rcases hres : isRes s.cfg b with _ | _ <;> simp only [hres, if_true, Bool.false_eq_true, if_false] at hs ⊢
  · show execEncLit s = _
    simp [execEncLit, ifSelected_eq hv hs, hb, encByte, hres]
  · show execEncEsc _ s = _
    simp [execEncEsc, ifSelected_eq hv hs, hb, encByte, hres]

/-- EVERYTHING AN OPERATION CAN DO when it answers next: a transition on the presented byte, the one response of a
command, or one more payload byte in the working sequence. -/
theorem exec_cases {i : Instr} {s t : State} (h : exec i s = .next t) :
    s.cfg.valid = true ∧ s.selected = some i ∧
      ((∃ p, s.presented = some p ∧ t = s.commit p (transition s.cfg p.dec p.byte)) ∨
        (∃ r, s.request = some r ∧ t = if s.cfg.M < r.payload.length then s.raiseFrameTooLarge r.enc r.moves
          else s.respondOk r.enc (encodeSeq s.cfg r.payload) r.moves) ∨
        (∃ b w, s.payloadByte = some (b, w) ∧ t = s.pushWork w (encByte s.cfg b))) := by
  have hsel : s.cfg.valid = true ∧ s.selected = some i := by
    cases i <;> exact ⟨(ifSelected_next h).1, (ifSelected_next h).2.1⟩
  obtain ⟨hv, hi⟩ := hsel
  refine ⟨hv, hi, ?_⟩
  rcases fetch_cases s with ⟨b, w, hb⟩ | ⟨r, hr⟩ | ⟨p, hp⟩ | ⟨hn, -⟩
  · obtain ⟨j, hj, he⟩ := exec_of_payloadByte hv hb
    obtain rfl := Option.some.inj (hi.symm.trans hj)
    exact .inr (.inr ⟨b, w, hb, Host.Outcome.next.inj (h.symm.trans he)⟩)
  · obtain rfl := Option.some.inj (hi.symm.trans (selected_of_request hr))
    exact .inr (.inl ⟨r, hr, Host.Outcome.next.inj (h.symm.trans (exec_encode_eq s hv hr))⟩)
  · refine .inl ⟨p, hp, ?_⟩
    have hi' := Option.some.inj (hi.symm.trans (selected_of_presented hp))
    rcases hf : effectOf i with _ | f
    · obtain ⟨g, hg⟩ := effectOf_dwInstr (full s.cfg p.dec) p.dec.state (cls s.cfg p.byte)
      rw [hi', hg] at hf
      cases hf
    · rw [exec_eq_of_effect hf] at h
      obtain ⟨p', t', hp', ht', rfl⟩ := onPresented_next (ifSelected_next h).2.2
      obtain rfl := Option.some.inj (hp.symm.trans hp')
      rw [hi'] at hf
      rw [effect_next hv hf ht']
  · simp [State.selected, hn] at hi

end Sys2Proof.Machine
end

