-- ==== Sys2Proof/Laws/PerInstr.lean ====
section
/-! SUPPORT. The per-instruction family RoundTrip: for each operation, the decoder gives it back from its own word. -/

namespace Sys2Proof.Laws.RoundTrip

/-- What the family says of one operation. -/
def Statement (i : Instr) : Prop := i.wellFormed = true → decode (Sys2Proof.encode i) = .ok i

theorem encode : Statement .encode := fun _ => rfl
theorem encLit : Statement .encLit := fun _ => rfl
theorem encEsc (k : ByteClass) : Statement (.encEsc k) := by cases k <;> simp [Statement, Instr.wellFormed] <;> rfl
theorem whStart (f : Bool) : Statement (.whStart f) := by cases f <;> exact fun _ => rfl
theorem whDiscard (f : Bool) (k : ByteClass) : Statement (.whDiscard f k) := by
  cases f <;> cases k <;> simp [Statement, Instr.wellFormed] <;> rfl
theorem imEsc (f : Bool) : Statement (.imEsc f) := by cases f <;> exact fun _ => rfl
theorem imEnd (f : Bool) : Statement (.imEnd f) := by cases f <;> exact fun _ => rfl
theorem imResyncStart (f : Bool) : Statement (.imResyncStart f) := by cases f <;> exact fun _ => rfl
theorem imAppend : Statement .imAppend := fun _ => rfl
theorem imOverflow : Statement .imOverflow := fun _ => rfl
theorem aeBadEscape (f : Bool) : Statement (.aeBadEscape f) := by cases f <;> exact fun _ => rfl
theorem aeAppend (k : ByteClass) : Statement (.aeAppend k) := by
  cases k <;> simp [Statement, Instr.wellFormed] <;> rfl
theorem aeOverflow (k : ByteClass) : Statement (.aeOverflow k) := by
  cases k <;> simp [Statement, Instr.wellFormed] <;> rfl

end Sys2Proof.Laws.RoundTrip
end

