-- ==== Sys2Proof/Laws/Step.lean ====
section
/-! SUPPORT. What one step can do, said once. -/

namespace Sys2Proof.Machine

/-- A transition that does not consume its byte leaves WaitHeader, cleared, with no frame (41_decoder.md R91). -/
theorem transition_unconsumed {c : Config} {d : Dec} {b : Byte} (h : (transition c d b).consumed = false) :
    transition c d b = { dec := { state := .waitHeader, acc := [] }, consumed := false, frame := none } := by
  rcases d with ⟨st, acc⟩
  cases st <;> simp only [transition] at h ⊢ <;> split_ifs at h ⊢ <;> rfl

/-- The replay in WaitHeader always consumes (41_decoder.md R91). -/
theorem transition_replay (c : Config) (b : Byte) :
    transition c { state := .waitHeader, acc := [] } b =
      { dec := { state := if b = c.START then .inMessage else .waitHeader, acc := [] },
        consumed := true, frame := none } := by
  simp only [transition]
  split_ifs <;> rfl

/-- The presented byte of a state whose last transition did not consume it, presented again. -/
theorem presented_again {s : State} {p : Presented} {t : Trans} (hp : s.presented = some p)
    (ht : t.consumed = false) :
    ((s.commit p t).presentAgain p.ch).presented = some { p with dec := t.dec } := by
  obtain ⟨hw, -, hc⟩ := presented_iff.mp hp
  have hlt : p.ch < s.chans.length := (List.getElem?_eq_some_iff.mp hc).1
  simp [presented_iff, hw, ht, List.getElem?_set_self hlt]

theorem runSelected_of_selected {s : State} {i : Instr} (h : s.selected = some i) : runSelected s = exec i s := by
  unfold State.selected at h
  unfold runSelected
  rcases hf : s.fetch with _ | w
  · simp [hf] at h
  · rw [hf, Option.bind_some] at h
    rcases hd : decode w with r | j
    · simp [hd, Except.toOption] at h
    · rw [hd, Except.toOption] at h
      obtain rfl := Option.some.inj h
      simp [hd]

/-- EVERYTHING `runSelected` CAN DO when it answers next: an operation of `exec`, or the host's move. -/
theorem runSelected_next {s t : State} (h : runSelected s = .next t) :
    (∃ i, s.selected = some i ∧ exec i s = .next t) ∨ (s.fetch = none ∧ hostMove s = .next t) := by
  unfold runSelected at h
  split at h
  · next hf => exact .inr ⟨hf, h⟩
  · next w hw =>
    split at h
    · next i hi => exact .inl ⟨i, by simp [State.selected, hw, hi, Except.toOption], h⟩
    · cases h

/-- EVERYTHING A HOST MOVE CAN DO when it answers next. -/
theorem hostMove_next {s t : State} (h : hostMove s = .next t) :
    (∃ w, s.work = some w ∧ t = s.finishWork w) ∨
      (s.work = none ∧
        ((s.moves = [] ∧ t = s.idleStep []) ∨ (∃ ms, s.moves = .idle :: ms ∧ t = s.idleStep ms) ∨
          (∃ ch k ms, s.moves = .clock ch :: ms ∧ s.chans[ch]? = some k ∧ t = s.idleStep ms) ∨
          (∃ ch keep k ms, s.moves = .reset ch keep :: ms ∧ s.chans[ch]? = some k ∧ t = s.resetChan ch k keep ms) ∨
          ∃ ch q k ms, s.moves = .feed ch q :: ms ∧ s.chans[ch]? = some k ∧ t = s.startFeed ch k q ms)) := by
  unfold hostMove at h
  split at h
  · next w hw => exact .inl ⟨w, hw, (Host.Outcome.next.inj h).symm⟩
  · next hw =>
    refine .inr ⟨hw, ?_⟩
    split at h
    · next hm => exact .inl ⟨hm, (Host.Outcome.next.inj h).symm⟩
    · next ms hm => exact .inr (.inl ⟨ms, hm, (Host.Outcome.next.inj h).symm⟩)
    · next ch ms hm =>
      split at h
      · next k hk => exact .inr (.inr (.inl ⟨ch, k, ms, hm, hk, (Host.Outcome.next.inj h).symm⟩))
      · cases h
    · next ch keep ms hm =>
      split at h
      · next k hk => exact .inr (.inr (.inr (.inl ⟨ch, keep, k, ms, hm, hk, (Host.Outcome.next.inj h).symm⟩)))
      · cases h
    · next ch q ms hm =>
      split at h
      · next k hk => exact .inr (.inr (.inr (.inr ⟨ch, q, k, ms, hm, hk, (Host.Outcome.next.inj h).symm⟩)))
      · cases h
    · cases h

/-- The state after one decoder transition, and in the fused form after its replay too: the transition that the step
shows at its port, with the byte it leaves the channel in. -/
def stepTrans (c : Config) (d : Dec) (b : Byte) : Trans :=
  if c.fused = true ∧ (transition c d b).consumed = false then
    transition c { state := .waitHeader, acc := [] } b
  else transition c d b

/-- EVERYTHING A STEP CAN DO when it answers next. -/
theorem step_cases {s t : State} (h : step s = .next t) :
    s.cfg.valid = true ∧
      ((∃ p, s.presented = some p ∧ t = s.commit p (stepTrans s.cfg p.dec p.byte)) ∨
        (∃ r, s.request = some r ∧ t = if s.cfg.M < r.payload.length then s.raiseFrameTooLarge r.enc r.moves
          else s.respondOk r.enc (encodeSeq s.cfg r.payload) r.moves) ∨
        (∃ b w, s.payloadByte = some (b, w) ∧ t = s.pushWork w (encByte s.cfg b)) ∨
        (s.fetch = none ∧ hostMove s = .next t)) := by
  unfold step at h
  split_ifs at h with hv hf
  · refine ⟨hv, ?_⟩
    rcases hr : runSelected s with t' | r | r
    · rw [hr] at h
      rcases runSelected_next hr with ⟨i, -, he⟩ | ⟨hn, hm⟩
      · obtain ⟨-, -, hc⟩ := exec_cases he
        rcases hc with ⟨p, hp, rfl⟩ | ⟨r, hq, rfl⟩ | ⟨b, w, hb, rfl⟩
        · refine .inl ⟨p, hp, ?_⟩
          rcases hcons : (transition s.cfg p.dec p.byte).consumed with _ | _
          · have hu := transition_unconsumed hcons
            simp only [replayInStep, State.commit_out, hcons] at h
            have hp2 := presented_again (t := transition s.cfg p.dec p.byte) hp hcons
            obtain ⟨i2, hi2, he2⟩ := exec_of_presented (s := (s.commit p _).presentAgain p.ch)
              (by simpa using hv) hp2 (by simp [hu, Dec.len])
            rw [runSelected_of_selected hi2, he2] at h
            obtain rfl := Host.Outcome.next.inj h
            simp only [stepTrans, hf, and_self, if_true, hu, State.presentAgain_cfg, State.commit_cfg,
              transition_replay]
            simp [State.commit, State.presentAgain, frameEvents]
          · simp only [replayInStep, State.commit_out, hcons] at h
            simpa [stepTrans, hcons] using (Host.Outcome.next.inj h).symm
        · refine .inr (.inl ⟨r, hq, ?_⟩)
          split_ifs at h ⊢ <;> simpa [replayInStep] using h.symm
        · exact .inr (.inr (.inl ⟨b, w, hb, by simpa [replayInStep] using h.symm⟩))
      · refine .inr (.inr (.inr ⟨hn, ?_⟩))
        rw [hm]
        rcases hostMove_next hm with ⟨w, -, rfl⟩ | ⟨-, ⟨-, rfl⟩ | ⟨ms, -, rfl⟩ | ⟨_, _, _, -, -, rfl⟩ |
          ⟨_, _, _, _, -, -, rfl⟩ | ⟨_, _, _, _, -, -, rfl⟩⟩ <;> simpa [replayInStep] using h
    · rw [hr] at h; cases h
    · rw [hr] at h; cases h
  · refine ⟨hv, ?_⟩
    rcases runSelected_next h with ⟨i, -, he⟩ | ⟨hn, hm⟩
    · obtain ⟨-, -, hc⟩ := exec_cases he
      rcases hc with ⟨p, hp, rfl⟩ | hq | hb
      · exact .inl ⟨p, hp, by simp [stepTrans, hf]⟩
      · exact .inr (.inl hq)
      · exact .inr (.inr (.inl hb))
    · exact .inr (.inr (.inr ⟨hn, hm⟩))

/-- The step of a presented byte in a state that keeps `dec.len <= M`. -/
theorem step_of_presented {s : State} {p : Presented} (hv : s.cfg.valid = true) (hp : s.presented = some p)
    (hd : p.dec.len ≤ s.cfg.M) : step s = .next (s.commit p (stepTrans s.cfg p.dec p.byte)) := by
  obtain ⟨i, hi, he⟩ := exec_of_presented hv hp hd
  have hr : runSelected s = .next (s.commit p (transition s.cfg p.dec p.byte)) := by
    rw [runSelected_of_selected hi, he]
  rcases hc : (transition s.cfg p.dec p.byte).consumed with _ | _
  · rcases hf : s.cfg.fused with _ | _
    · simp [step, hv, hf, hr, stepTrans]
    · have hu := transition_unconsumed hc
      have hp2 := presented_again (t := transition s.cfg p.dec p.byte) hp hc
      obtain ⟨i2, hi2, he2⟩ := exec_of_presented (s := (s.commit p _).presentAgain p.ch)
        (by simpa using hv) hp2 (by simp [hu, Dec.len])
      simp only [step, hv, hf, hr, if_true, replayInStep, State.commit_out, hc]
      rw [runSelected_of_selected hi2, he2]
      simp only [stepTrans, hf, and_self, if_true, hu, State.presentAgain_cfg, State.commit_cfg, transition_replay]
      simp [State.commit, State.presentAgain, frameEvents]
  · simp [step, hv, hr, replayInStep, hc, stepTrans]

end Sys2Proof.Machine
end

