-- ==== Sys2Proof/Laws/Stream.lean ====
section
/-! SUPPORT. The transition function case by case, and the feed over a concatenation. -/

namespace Sys2Proof.Machine

variable {c : Config} {a : Memory} {b : Byte}

theorem transition_wh_start (c : Config) (a : Memory) :
    transition c ⟨.waitHeader, a⟩ c.START = ⟨⟨.inMessage, []⟩, true, none⟩ := by simp [transition]

theorem transition_wh_other (h : b ≠ c.START) :
    transition c ⟨.waitHeader, a⟩ b = ⟨⟨.waitHeader, a⟩, true, none⟩ := by simp [transition, h]

theorem transition_im_esc (c : Config) (a : Memory) :
    transition c ⟨.inMessage, a⟩ c.ESC = ⟨⟨.afterEscape, a⟩, true, none⟩ := by simp [transition]

theorem transition_im_end (hv : c.valid = true) (a : Memory) :
    transition c ⟨.inMessage, a⟩ c.END = ⟨⟨.waitHeader, []⟩, true, some a⟩ := by
  simp [transition, (valid_iff.mp hv).2.2.1]

theorem transition_im_start (hv : c.valid = true) (a : Memory) :
    transition c ⟨.inMessage, a⟩ c.START = ⟨⟨.waitHeader, []⟩, false, none⟩ := by
  simp [transition, (valid_iff.mp hv).1, (valid_iff.mp hv).2.1]

theorem transition_im_lit (hb : isRes c b = false) (ha : a.length < c.M) :
    transition c ⟨.inMessage, a⟩ b = ⟨⟨.inMessage, a ++ [b]⟩, true, none⟩ := by
  obtain ⟨h1, h2, h3⟩ := not_isRes_iff.mp hb
  simp [transition, h1, h2, h3, ha, Dec.len]

theorem transition_im_lit_full (hb : isRes c b = false) (ha : c.M ≤ a.length) :
    transition c ⟨.inMessage, a⟩ b = ⟨⟨.waitHeader, []⟩, false, none⟩ := by
  obtain ⟨h1, h2, h3⟩ := not_isRes_iff.mp hb
  simp [transition, h1, h2, h3, Nat.not_lt.mpr ha, Dec.len]

theorem transition_ae_res (hb : isRes c b = true) (ha : a.length < c.M) :
    transition c ⟨.afterEscape, a⟩ b = ⟨⟨.inMessage, a ++ [b]⟩, true, none⟩ := by
  simp [transition, hb, ha, Dec.len]

theorem transition_ae_res_full (hb : isRes c b = true) (ha : c.M ≤ a.length) :
    transition c ⟨.afterEscape, a⟩ b = ⟨⟨.waitHeader, []⟩, false, none⟩ := by
  simp [transition, hb, Nat.not_lt.mpr ha, Dec.len]

theorem transition_ae_lit (hb : isRes c b = false) :
    transition c ⟨.afterEscape, a⟩ b = ⟨⟨.waitHeader, []⟩, false, none⟩ := by
  simp [transition, hb]

/-- A transition keeps `dec.len <= M` and `dec.len = 0` in WaitHeader (10_state.md R18, R20). -/
theorem transition_keeps {d : Dec} (hl : d.acc.length ≤ c.M) (hw : d.state = .waitHeader → d.acc = []) (b : Byte) :
    (transition c d b).dec.acc.length ≤ c.M ∧
      ((transition c d b).dec.state = .waitHeader → (transition c d b).dec.acc = []) := by
  rcases d with ⟨st, a⟩
  cases st <;> simp only [transition, Dec.len] <;> split_ifs <;> simp_all

/-- A byte that its transition consumes takes that transition alone (41_decoder.md R95). -/
theorem byteStep_consumed {d : Dec} (h : (transition c d b).consumed = true) :
    byteStep c d b = ((transition c d b).dec, (transition c d b).frames) := by
  simp [byteStep, h]

/-- A byte whose transition is a resync leaves InMessage if it is START and WaitHeader if not, with no frame
(41_decoder.md R95). -/
theorem byteStep_resync {d : Dec} (h : (transition c d b).consumed = false) :
    byteStep c d b = (⟨if b = c.START then .inMessage else .waitHeader, []⟩, []) := by
  simp [byteStep, transition_unconsumed h, transition_replay, Trans.frames]

@[simp] theorem feed_nil (c : Config) (d : Dec) : feed c d [] = (d, []) := rfl

theorem feed_cons (c : Config) (d : Dec) (b : Byte) (bs : List Byte) :
    feed c d (b :: bs) = ((feed c (byteStep c d b).1 bs).1, (byteStep c d b).2 ++ (feed c (byteStep c d b).1 bs).2) :=
  rfl

theorem feed_append (c : Config) (d : Dec) (xs ys : List Byte) :
    feed c d (xs ++ ys) = ((feed c (feed c d xs).1 ys).1, (feed c d xs).2 ++ (feed c (feed c d xs).1 ys).2) := by
  induction xs generalizing d with
  | nil => simp
  | cons b bs ih => simp [feed_cons, ih]

@[simp] theorem stuff_nil (c : Config) : stuff c [] = [] := rfl

@[simp] theorem stuff_cons (c : Config) (b : Byte) (p : List Byte) : stuff c (b :: p) = encByte c b ++ stuff c p := rfl

theorem stuff_append (c : Config) (p q : List Byte) : stuff c (p ++ q) = stuff c p ++ stuff c q := by
  induction p with
  | nil => rfl
  | cons b p ih => simp [ih]

end Sys2Proof.Machine
end

