-- ==== Sys2Proof/Laws/Run.lean ====
section
/-! SUPPORT. Runs of several steps, and the presented byte as the statements write it. -/

namespace Sys2Proof.Machine

@[simp] theorem run_zero (s : State) : run 0 s = .next s := rfl

theorem run_succ {s t : State} (h : step s = .next t) (n : Nat) : run (n + 1) s = run n t := by
  simp [run, h]

theorem run_add {s t : State} {m : Nat} (h : run m s = .next t) (n : Nat) : run (m + n) s = run n t := by
  induction m generalizing s with
  | zero => simpa using congrArg (run n) (Host.Outcome.next.inj h)
  | succ m ih =>
    rcases hs : step s with u | r | r
    · rw [run_succ hs] at h
      rw [Nat.succ_add, run_succ hs]
      exact ih h
    · simp [run, hs] at h
    · simp [run, hs] at h

theorem core_run_succ (C : Host.Core) (n : Nat) (s : C.State) :
    (∀ t, C.step s = .next t → C.run (n + 1) s = C.run n t) ∧
      (∀ r, C.step s = .fault r → C.run (n + 1) s = .fault r) ∧
      (∀ r, C.step s = .refused r → C.run (n + 1) s = .refused r) := by
  refine ⟨fun t h => ?_, fun r h => ?_, fun r h => ?_⟩ <;> simp [Host.Core.run, h]

/-- The model's run is the host's. -/
theorem run_eq_core_run (n : Nat) (s : State) : run n s = Host.Core.run Sys2Proof.core n s := by
  induction n generalizing s with
  | zero => rfl
  | succ n ih =>
    have hc := core_run_succ Sys2Proof.core n s
    rcases hs : step s with t | r | r
    · exact (run_succ hs n).trans ((ih t).trans (hc.1 t hs).symm)
    · exact (by simp [run, hs] : run (n + 1) s = .fault r).trans (hc.2.1 r hs).symm
    · exact (by simp [run, hs] : run (n + 1) s = .refused r).trans (hc.2.2 r hs).symm

theorem presents_iff {s : State} {ch : Nat} {d : Dec} {b : Byte} {rest : List Byte} {ms : List Move} :
    s.Presents ch d b rest ms ↔ s.cfg.valid = true ∧
      s.presented = some { ch := ch, dec := d, byte := b, rest := rest, moves := ms } := by
  simp [State.Presents, presented_iff]

@[simp] theorem framesOf_append (ch : Nat) (es fs : List Event) :
    framesOf ch (es ++ fs) = framesOf ch es ++ framesOf ch fs := by
  induction es with
  | nil => rfl
  | cons x es ih =>
    rcases x with ⟨c, f⟩ | ⟨e, q⟩
    · simp only [List.cons_append, framesOf, ih]
      split_ifs <;> rfl
    · exact ih

@[simp] theorem sequencesOf_append (e : Nat) (es fs : List Event) :
    sequencesOf e (es ++ fs) = sequencesOf e es ++ sequencesOf e fs := by
  induction es with
  | nil => rfl
  | cons x es ih =>
    rcases x with ⟨c, f⟩ | ⟨c, q⟩
    · exact ih
    · simp only [List.cons_append, sequencesOf, ih]
      split_ifs <;> rfl

/-- The operation that a presented byte selects. -/
theorem State.Presents.selected {s : State} {ch : Nat} {d : Dec} {b : Byte} {rest : List Byte} {ms : List Move}
    (h : s.Presents ch d b rest ms) : s.selected = some (dwInstr (full s.cfg d) d.state (cls s.cfg b)) :=
  selected_of_presented (presents_iff.mp h).2

/-- The word that a presented byte forms. -/
theorem State.Presents.fetch {s : State} {ch : Nat} {d : Dec} {b : Byte} {rest : List Byte} {ms : List Move}
    (h : s.Presents ch d b rest ms) : s.fetch = some (.dw (decWord s.cfg d b)) := by
  have := fetch_of_presented (presents_iff.mp h).2
  exact this

/-- An operation with effect `f`, selected by a presented byte, commits what `f` returns. -/
theorem State.Presents.exec {s : State} {ch : Nat} {d : Dec} {b : Byte} {rest : List Byte} {ms : List Move}
    (h : s.Presents ch d b rest ms) {i : Instr} (hi : dwInstr (full s.cfg d) d.state (cls s.cfg b) = i)
    {f : Config → Dec → Byte → Except Fault Trans} (hf : effectOf i = some f) {t : Trans}
    (ht : f s.cfg d b = .ok t) :
    Machine.exec i s = .next (s.commit { ch := ch, dec := d, byte := b, rest := rest, moves := ms } t) := by
  obtain ⟨hv, hp⟩ := presents_iff.mp h
  rw [exec_eq_of_effect hf, ifSelected_eq hv (by rw [← hi]; exact h.selected), onPresented_ok hp ht]

/-- The step of a presented byte, within `dec.len <= M`. -/
theorem State.Presents.step {s : State} {ch : Nat} {d : Dec} {b : Byte} {rest : List Byte} {ms : List Move}
    (h : s.Presents ch d b rest ms) (hd : d.len ≤ s.cfg.M) :
    Machine.step s = .next (s.commit { ch := ch, dec := d, byte := b, rest := rest, moves := ms }
      (stepTrans s.cfg d b)) := by
  obtain ⟨hv, hp⟩ := presents_iff.mp h
  exact step_of_presented hv hp hd

end Sys2Proof.Machine
end

