-- ==== Sys2Proof/Tests/Slice0.lean ====
section
/-! SUPPORT. Tests: ill-formed operations refused, each operation's word as 30_encoding.md writes it, one step per operation
from the vectors of 95_test_vectors.md (M = 10, default sentinels), and for each statement with hypotheses a witness
that meets them. -/

namespace Sys2Proof.Tests

open Sys2Proof Sys2Proof.Machine

/-! ### Helpers -/

/-- The next state of an outcome. -/
def next? : Host.Outcome State Fault Refusal → Option State
  | .next t => some t
  | .fault _ => none
  | .refused _ => none

/-- Channel 0 in a given decoder state, with these bytes to present, and this many steps to present them in. -/
def chan0 (st : DecState) (acc bytes : List Byte) (n : Nat := 1) : State :=
  { State.reset with
    chans := [⟨⟨st, acc⟩, bytes⟩, ⟨Dec.reset, []⟩]
    moves := List.replicate n (.clock 0) }

/-- The same machine built in the fused form. -/
def fusedOf (s : State) : State := { s with cfg := { s.cfg with fused := true } }

/-- `ENCODE e0 p` requested. -/
def request (p : List Byte) : State := { State.reset with moves := [.encode 0 p] }

/-- Inside the command `ENCODE e0`, before these payload bytes. -/
def inCommand (p : List Byte) : State := { State.reset with work := some ⟨0, p, [0x12]⟩ }

/-- Ten bytes 0x01: a full accumulator. -/
def tenOnes : List Byte := List.replicate 10 0x01

/-- What a step leaves of channel 0: its decoder state, the consumed flag and the events. -/
def seen (o : Host.Outcome State Fault Refusal) : Option (Option Dec × Option Bool × List Event) :=
  (next? o).map fun t => (t.dec? 0, t.out.inReady 0, t.events)

/-- The sequences of a command's response: its status code and its ByteSink sequence. -/
def answered (o : Host.Outcome State Fault Refusal) : Option (Option (BitVec 1) × Option (List Byte) × Nat) :=
  (next? o).map fun t => (t.out.encStatus 0, t.out.outData 0, t.events.length)

/-! ### WellFormed refuses what no word selects (30_encoding.md R57, R61) -/

theorem test_illformed_encEsc_other : (Instr.encEsc .OTHER).wellFormed = false := by decide
theorem test_illformed_whDiscard_start : ∀ f, (Instr.whDiscard f .START).wellFormed = false := by decide
theorem test_illformed_aeAppend_other : (Instr.aeAppend .OTHER).wellFormed = false := by decide
theorem test_illformed_aeOverflow_other : (Instr.aeOverflow .OTHER).wellFormed = false := by decide

/-! ### Words, bit by bit (30_encoding.md R59, R60, R61) -/

theorem test_word_encode : decode (.cmd 0b1) = .ok .encode := rfl
theorem test_word_no_request : decode (.cmd 0b0) = .error .noRequest := rfl
theorem test_word_encLit : decode (.ew 0b00) = .ok .encLit := rfl
theorem test_word_encEsc : decode (.ew 0b01) = .ok (.encEsc .START) ∧ decode (.ew 0b10) = .ok (.encEsc .END) ∧
    decode (.ew 0b11) = .ok (.encEsc .ESC) := ⟨rfl, rfl, rfl⟩
theorem test_word_whStart : decode (.dw 0b00001) = .ok (.whStart false) ∧
    decode (.dw 0b10001) = .ok (.whStart true) := ⟨rfl, rfl⟩
theorem test_word_whDiscard : decode (.dw 0b00000) = .ok (.whDiscard false .OTHER) ∧
    decode (.dw 0b00010) = .ok (.whDiscard false .END) ∧ decode (.dw 0b10011) = .ok (.whDiscard true .ESC) :=
  ⟨rfl, rfl, rfl⟩
theorem test_word_imEsc : decode (.dw 0b00111) = .ok (.imEsc false) ∧ decode (.dw 0b10111) = .ok (.imEsc true) :=
  ⟨rfl, rfl⟩
theorem test_word_imEnd : decode (.dw 0b00110) = .ok (.imEnd false) ∧ decode (.dw 0b10110) = .ok (.imEnd true) :=
  ⟨rfl, rfl⟩
theorem test_word_imResyncStart : decode (.dw 0b00101) = .ok (.imResyncStart false) ∧
    decode (.dw 0b10101) = .ok (.imResyncStart true) := ⟨rfl, rfl⟩
theorem test_word_imAppend : decode (.dw 0b00100) = .ok .imAppend := rfl
theorem test_word_imOverflow : decode (.dw 0b10100) = .ok .imOverflow := rfl
theorem test_word_aeBadEscape : decode (.dw 0b01000) = .ok (.aeBadEscape false) ∧
    decode (.dw 0b11000) = .ok (.aeBadEscape true) := ⟨rfl, rfl⟩
theorem test_word_aeAppend : decode (.dw 0b01001) = .ok (.aeAppend .START) ∧
    decode (.dw 0b01010) = .ok (.aeAppend .END) ∧ decode (.dw 0b01011) = .ok (.aeAppend .ESC) := ⟨rfl, rfl, rfl⟩
theorem test_word_aeOverflow : decode (.dw 0b11001) = .ok (.aeOverflow .START) ∧
    decode (.dw 0b11010) = .ok (.aeOverflow .END) ∧ decode (.dw 0b11011) = .ok (.aeOverflow .ESC) := ⟨rfl, rfl, rfl⟩
theorem test_word_state_11 : decode (.dw 0b01101) = .error .stateCode11 := rfl

/-- A word of the table, placed for the first step after reset, runs as that step. -/
theorem test_placed_word_runs :
    decodeTableWord 8 0b10100 = some .imOverflow ∧
    next? (step (State.reset.withFetchWord 8 0b10100)) = next? (exec .imOverflow (State.reset.withFetchWord 8 0b10100)) ∧
    (next? (step (State.reset.withFetchWord 8 0b10100))).isSome = true ∧
    (next? (step (State.reset.withFetchWord 16 0b01000))).isSome = true ∧
    (next? (step (State.reset.withFetchWord 1 0b1))).isSome = true ∧
    (next? (step (State.reset.withFetchWord 2 0b11))).isSome = true := by decide

/-! ### One step per operation (95_test_vectors.md) -/

/-- L2-5, an escaped END; L2-1, the empty payload. -/
theorem test_encode : answered (exec .encode (request [0x13])) = some (some 0, some [0x12, 0x7D, 0x13, 0x13], 1) ∧
    answered (exec .encode (request [])) = some (some 0, some [0x12, 0x13], 1) := by decide

/-- L1-4: M+1 bytes; M reserved bytes give 2M+2 (L2-8). -/
theorem test_encode_guard :
    answered (exec .encode (request (List.replicate 11 0x12))) = some (some 1, none, 0) ∧
    (next? (exec .encode (request (List.replicate 10 0x12)))).bind (fun t => t.out.outLen 0) = some 22 := by decide

/-- R70: `ENC_LIT(0x42) = {0x42}`. -/
theorem test_encLit : (next? (exec .encLit (inCommand [0x42]))).map (·.work) = some (some ⟨0, [], [0x12, 0x42]⟩) := by
  decide

/-- R69: `ENC_ESC(0x12) = {0x7D, 0x12}`. -/
theorem test_encEsc : (next? (exec (.encEsc .START) (inCommand [0x12]))).map (·.work) =
    some (some ⟨0, [], [0x12, 0x7D, 0x12]⟩) := by decide

/-- L2-11. -/
theorem test_whStart : seen (exec (.whStart false) (chan0 .waitHeader [] [0x12])) =
    some (some ⟨.inMessage, []⟩, some true, []) := by decide

/-- L2-12. -/
theorem test_whDiscard : seen (exec (.whDiscard false .END) (chan0 .waitHeader [] [0x13])) =
    some (some ⟨.waitHeader, []⟩, some true, []) := by decide

/-- L2-13. -/
theorem test_imEsc : seen (exec (.imEsc false) (chan0 .inMessage [0x10] [0x7D])) =
    some (some ⟨.afterEscape, [0x10]⟩, some true, []) := by decide

/-- L2-14. -/
theorem test_imEnd : seen (exec (.imEnd false) (chan0 .inMessage [0x10, 0x11] [0x13])) =
    some (some ⟨.waitHeader, []⟩, some true, [.frameSink 0 [0x10, 0x11]]) := by decide

/-- L2-15, with its replay. -/
theorem test_imResyncStart : seen (exec (.imResyncStart false) (chan0 .inMessage [0x10] [0x12])) =
      some (some ⟨.waitHeader, []⟩, some false, []) ∧
    seen (run 2 (chan0 .inMessage [0x10] [0x12] 2)) = some (some ⟨.inMessage, []⟩, some true, []) := by decide

/-- L2-16. -/
theorem test_imAppend : seen (exec .imAppend (chan0 .inMessage [0x10] [0x11])) =
    some (some ⟨.inMessage, [0x10, 0x11]⟩, some true, []) := by decide

/-- L2-17, with its replay. -/
theorem test_imOverflow : seen (exec .imOverflow (chan0 .inMessage tenOnes [0x01])) =
      some (some ⟨.waitHeader, []⟩, some false, []) ∧
    seen (run 2 (chan0 .inMessage tenOnes [0x01] 2)) = some (some ⟨.waitHeader, []⟩, some true, []) := by decide

/-- L2-18. -/
theorem test_aeAppend : seen (exec (.aeAppend .START) (chan0 .afterEscape [0x10, 0x11] [0x12])) =
    some (some ⟨.inMessage, [0x10, 0x11, 0x12]⟩, some true, []) := by decide

/-- L2-19, with its replay, which opens a frame. -/
theorem test_aeOverflow : seen (exec (.aeOverflow .START) (chan0 .afterEscape tenOnes [0x12])) =
      some (some ⟨.waitHeader, []⟩, some false, []) ∧
    seen (run 2 (chan0 .afterEscape tenOnes [0x12] 2)) = some (some ⟨.inMessage, []⟩, some true, []) := by decide

/-- L2-20, and L2-30: a bad escape even when full. -/
theorem test_aeBadEscape : seen (exec (.aeBadEscape false) (chan0 .afterEscape [0x10] [0x41])) =
      some (some ⟨.waitHeader, []⟩, some false, []) ∧
    seen (step (chan0 .afterEscape tenOnes [0x41])) = some (some ⟨.waitHeader, []⟩, some false, []) := by decide

/-- L2-15 in the fused form: one step, ready. -/
theorem test_fused : seen (step (fusedOf (chan0 .inMessage [0x10] [0x12]))) =
    some (some ⟨.inMessage, []⟩, some true, []) := by decide

/-- R134, R150: `rst` drops the frame; R138: a broken configuration is refused. -/
theorem test_reset_and_refusal :
    seen (step { chan0 .inMessage [0x10] [0x13] with moves := [.reset 0 true] }) =
      some (some ⟨.waitHeader, []⟩, some false, []) ∧
    (next? (step { State.reset with cfg := { Config.default with END := 0x12 } })).isNone = true := by decide

/-! ### Witnesses: hypotheses that can be met -/

theorem witness_DecodeWordSelectsFirstRow :
    (0b11101#5).extractLsb' 2 2 = 0b11 ∧ (chan0 .afterEscape tenOnes [0x7D]).fetch = some (.dw 0b11011) := by decide

theorem witness_DecodeAndEncodeAgree :
    (Instr.aeOverflow .ESC).wellFormed = true ∧ decode (.dw 0b11011) = .ok (.aeOverflow .ESC) := ⟨by decide, rfl⟩

theorem witness_valid : Config.default.valid = true := by decide

theorem witness_ByteClassesPartitionTheBytes : Config.default.valid = true := witness_valid

theorem witness_ResetIsWithinTheInvariants : Config.default.valid = true := witness_valid

theorem witness_StepRunsTheDecodedOperation :
    ((chan0 .inMessage [] [0x12]).cfg.fused = false ∧ (chan0 .inMessage [] [0x12]).cfg.valid = true ∧
      (chan0 .inMessage [] [0x12]).fetch = some (.dw 0b00101)) ∧
    ((fusedOf (chan0 .inMessage [] [0x12])).cfg.fused = true ∧ (fusedOf (chan0 .inMessage [] [0x12])).cfg.valid = true ∧
      (fusedOf (chan0 .inMessage [] [0x12])).fetch = some (.dw 0b00101)) ∧
    decode (.dw 0b00101) = .ok (.imResyncStart false) ∧
    (next? (exec (.imResyncStart false) (fusedOf (chan0 .inMessage [] [0x12])))).map (·.out) =
      some (.dec 0 false none) :=
  ⟨by decide, by decide, rfl, by decide⟩

/-- A byte presented to channel 0 of the default configuration. -/
theorem presents_chan0 (st : DecState) (acc : List Byte) (b : Byte) (rest : List Byte) :
    (chan0 st acc (b :: rest)).Presents 0 ⟨st, acc⟩ b rest [] := ⟨witness_valid, rfl, rfl, rfl⟩

theorem witness_EveryPresentedByteSelectsOneOperationThatCompletes :
    (chan0 .afterEscape tenOnes [0x7D]).Presents 0 ⟨.afterEscape, tenOnes⟩ 0x7D [] [] ∧
    Dec.wf (chan0 .afterEscape tenOnes [0x7D]).cfg ⟨.afterEscape, tenOnes⟩ := ⟨presents_chan0 _ _ _ _, by decide⟩

theorem witness_SelectedOperationIsTheTransitionFunction :
    (chan0 .inMessage tenOnes [0x13, 0x12]).Presents 0 ⟨.inMessage, tenOnes⟩ 0x13 [0x12] [] ∧
    Dec.wf (chan0 .inMessage tenOnes [0x13, 0x12]).cfg ⟨.inMessage, tenOnes⟩ := ⟨presents_chan0 _ _ _ _, by decide⟩

theorem witness_WhStartOpensAFrame :
    (chan0 .waitHeader [] [0x12]).Presents 0 ⟨.waitHeader, []⟩ (chan0 .waitHeader [] [0x12]).cfg.START [] [] :=
  presents_chan0 _ _ _ _

theorem witness_WhDiscardSkipsTheByte :
    (chan0 .waitHeader [] [0x13]).Presents 0 ⟨.waitHeader, []⟩ 0x13 [] [] ∧
    (0x13 : Byte) ≠ (chan0 .waitHeader [] [0x13]).cfg.START := ⟨presents_chan0 _ _ _ _, by decide⟩

theorem witness_ImEscEntersAfterEscape :
    (chan0 .inMessage tenOnes [0x7D]).Presents 0 ⟨.inMessage, tenOnes⟩ (chan0 .inMessage tenOnes [0x7D]).cfg.ESC [] [] :=
  presents_chan0 _ _ _ _

theorem witness_ImEndDeliversTheFrame :
    (chan0 .inMessage [] [0x13]).Presents 0 ⟨.inMessage, []⟩ (chan0 .inMessage [] [0x13]).cfg.END [] [] ∧
    (chan0 .inMessage tenOnes [0x13]).Presents 0 ⟨.inMessage, tenOnes⟩ (chan0 .inMessage tenOnes [0x13]).cfg.END [] [] :=
  ⟨presents_chan0 _ _ _ _, presents_chan0 _ _ _ _⟩

/-- Channel 0 with two steps left, for a byte and its replay. -/
theorem presents_twice (st : DecState) (acc : List Byte) (b : Byte) :
    (chan0 st acc [b] 2).Presents 0 ⟨st, acc⟩ b [] (.clock 0 :: []) := ⟨witness_valid, rfl, rfl, rfl⟩

theorem witness_ImResyncStartReplaysTheStart :
    (chan0 .inMessage [0x10] [0x12] 2).Presents 0 ⟨.inMessage, [0x10]⟩ (chan0 .inMessage [0x10] [0x12] 2).cfg.START []
      (.clock 0 :: []) := presents_twice _ _ _

theorem witness_ImAppendStoresTheByte :
    (chan0 .inMessage (List.replicate 9 1) [0x00]).Presents 0 ⟨.inMessage, List.replicate 9 1⟩ 0x00 [] [] ∧
    isRes (chan0 .inMessage (List.replicate 9 1) [0x00]).cfg 0x00 = false ∧
    (List.replicate 9 (1 : Byte)).length < (chan0 .inMessage (List.replicate 9 1) [0x00]).cfg.M :=
  ⟨presents_chan0 _ _ _ _, by decide, by decide⟩

theorem witness_ImOverflowDropsTheFrame :
    (chan0 .inMessage tenOnes [0x01] 2).Presents 0 ⟨.inMessage, tenOnes⟩ 0x01 [] (.clock 0 :: []) ∧
    isRes (chan0 .inMessage tenOnes [0x01] 2).cfg 0x01 = false ∧
    tenOnes.length = (chan0 .inMessage tenOnes [0x01] 2).cfg.M := ⟨presents_twice _ _ _, by decide, by decide⟩

theorem witness_AeAppendStoresTheReservedByte :
    (chan0 .afterEscape (List.replicate 9 1) [0x7D]).Presents 0 ⟨.afterEscape, List.replicate 9 1⟩ 0x7D [] [] ∧
    isRes (chan0 .afterEscape (List.replicate 9 1) [0x7D]).cfg 0x7D = true ∧
    (List.replicate 9 (1 : Byte)).length < (chan0 .afterEscape (List.replicate 9 1) [0x7D]).cfg.M :=
  ⟨presents_chan0 _ _ _ _, by decide, by decide⟩

theorem witness_AeOverflowDropsTheFrame (b : Byte) (hb : b ∈ [0x12, 0x13, 0x7D]) :
    (chan0 .afterEscape tenOnes [b] 2).Presents 0 ⟨.afterEscape, tenOnes⟩ b [] (.clock 0 :: []) ∧
    isRes (chan0 .afterEscape tenOnes [b] 2).cfg b = true ∧
    tenOnes.length = (chan0 .afterEscape tenOnes [b] 2).cfg.M := by
  refine ⟨presents_twice _ _ _, ?_, rfl⟩
  fin_cases hb <;> decide

theorem witness_AeBadEscapeDropsTheFrame :
    (chan0 .afterEscape tenOnes [0x41] 2).Presents 0 ⟨.afterEscape, tenOnes⟩ 0x41 [] (.clock 0 :: []) ∧
    isRes (chan0 .afterEscape tenOnes [0x41] 2).cfg 0x41 = false := ⟨presents_twice _ _ _, by decide⟩

/-- M bytes, and M+1. -/
theorem witness_EncodeAnswersOnceWithTheSequenceOrTheError :
    ((request tenOnes).cfg.valid = true ∧ (request tenOnes).work = none ∧ (request tenOnes).moves = [.encode 0 tenOnes] ∧
      0 < (request tenOnes).cfg.NENC ∧ tenOnes.length ≤ (request tenOnes).cfg.M) ∧
    ((request (0 :: tenOnes)).cfg.valid = true ∧ (request (0 :: tenOnes)).work = none ∧
      (request (0 :: tenOnes)).moves = [.encode 0 (0 :: tenOnes)] ∧ 0 < (request (0 :: tenOnes)).cfg.NENC ∧
      (request (0 :: tenOnes)).cfg.M < (0 :: tenOnes).length) := by decide

theorem witness_EncLitPassesTheByteThrough :
    (inCommand [0xFF]).cfg.valid = true ∧ (inCommand [0xFF]).work = some ⟨0, 0xFF :: [], [0x12]⟩ ∧
    isRes (inCommand [0xFF]).cfg 0xFF = false := by decide

theorem witness_EncEscEscapesTheByte :
    (inCommand [0x7D]).cfg.valid = true ∧ (inCommand [0x7D]).work = some ⟨0, 0x7D :: [], [0x12]⟩ ∧
    isRes (inCommand [0x7D]).cfg 0x7D = true := by decide

theorem witness_PerByteOperationsMakeUpEncode :
    (request [0x12, 0x41]).cfg.valid = true ∧ (request [0x12, 0x41]).work = none ∧
    (request [0x12, 0x41]).moves = [.encode 0 [0x12, 0x41]] ∧ 0 < (request [0x12, 0x41]).cfg.NENC ∧
    [(0x12 : Byte), 0x41].length ≤ (request [0x12, 0x41]).cfg.M := by decide

/-- The two inner hypotheses: another body for the same word, another payload with the same sequence. -/
theorem witness_EncodedSequenceIsTheFrameOfItsPayload :
    Config.default.valid = true ∧
    Body Config.default [0x12, 0x41] [0x7D, 0x12, 0x41] ∧
    encodeSeq Config.default [0x12, 0x41] = [0x12, 0x7D, 0x12, 0x41, 0x13] ∧ [(0x12 : Byte), 0x41].length ≤ Config.default.M :=
  ⟨witness_valid, .esc _ (by decide) (.lit _ (by decide) .nil), by decide, by decide⟩

theorem witness_ResyncEntryHasOneEffect (b : Byte) (hb : b ∈ [0x12, 0x41]) :
    (chan0 .inMessage tenOnes [b]).Presents 0 ⟨.inMessage, tenOnes⟩ b [] [] ∧
    ∃ i, (chan0 .inMessage tenOnes [b]).selected = some i ∧ resyncKind i ≠ none := by
  refine ⟨presents_chan0 _ _ _ _, ?_⟩
  fin_cases hb
  · exact ⟨.imResyncStart true, by decide, by decide⟩
  · exact ⟨.imOverflow, by decide, by decide⟩

theorem witness_ByteClassDecidesBeforeRoom :
    tenOnes.length = Config.default.M ∧
    (chan0 .inMessage tenOnes [0x7D]).Presents 0 ⟨.inMessage, tenOnes⟩ Config.default.ESC [] [] ∧
    (chan0 .inMessage tenOnes [0x13]).Presents 0 ⟨.inMessage, tenOnes⟩ Config.default.END [] [] ∧
    (chan0 .inMessage tenOnes [0x12]).Presents 0 ⟨.inMessage, tenOnes⟩ Config.default.START [] [] ∧
    (chan0 .afterEscape tenOnes [0x41]).Presents 0 ⟨.afterEscape, tenOnes⟩ 0x41 [] [] ∧
    isRes Config.default 0x41 = false :=
  ⟨by decide, presents_chan0 _ _ _ _, presents_chan0 _ _ _ _, presents_chan0 _ _ _ _, presents_chan0 _ _ _ _,
    by decide⟩

/-- An operation that does not consume, with the replay to come, and the operation that replays. -/
theorem witness_AByteIsReplayedAtMostOnce :
    ∃ t u, exec (.imResyncStart false) (chan0 .inMessage [] [0x12] 2) = .next t ∧ t.out = .dec 0 false none ∧
      t.moves.head? = some (.clock 0) ∧ exec (.whStart false) t = .next u := ⟨_, _, rfl, rfl, rfl, rfl⟩

/-- Each way to break the configuration. -/
theorem witness_BrokenConfigurationIsRefused :
    (∃ s : State, s.cfg.START = s.cfg.END) ∧ (∃ s : State, s.cfg.START = s.cfg.ESC) ∧
    (∃ s : State, s.cfg.END = s.cfg.ESC) ∧ (∃ s : State, s.cfg.M < 10) ∧
    (∃ s : State, 2 ^ s.cfg.LEN_W ≤ s.cfg.M + 1) :=
  ⟨⟨{ State.reset with cfg := { Config.default with END := 0x12 } }, rfl⟩,
    ⟨{ State.reset with cfg := { Config.default with ESC := 0x12 } }, rfl⟩,
    ⟨{ State.reset with cfg := { Config.default with ESC := 0x13 } }, rfl⟩,
    ⟨{ State.reset with cfg := { Config.default with M := 9 } }, by decide⟩,
    ⟨{ State.reset with cfg := { Config.default with M := 15 } }, by decide⟩⟩

/-- An append that fills the accumulator, and one at `dec.len = M`. -/
theorem witness_AppendSucceedsExactlyWithRoom :
    (∃ d', accAppend Config.default ⟨.inMessage, tenOnes.tail⟩ 0x41 = .ok d') ∧
    (⟨.inMessage, tenOnes.tail⟩ : Dec).len < Config.default.M ∧
    (⟨.inMessage, tenOnes⟩ : Dec).len = Config.default.M := ⟨⟨_, rfl⟩, by decide, by decide⟩

/-- A decoder operation, ENCODE, and an operation inside a command. -/
theorem witness_OperationsLeaveTheRestUnchanged :
    (∃ t, exec (.imEnd true) (chan0 .inMessage tenOnes [0x13]) = .next t) ∧ (∃ t, exec .encode (request []) = .next t) ∧
    (∃ t, exec (.encEsc .ESC) (inCommand [0x7D]) = .next t ∧ (inCommand [0x7D]).work = some ⟨0, [0x7D], [0x12]⟩) :=
  ⟨⟨_, rfl⟩, ⟨_, rfl⟩, ⟨_, rfl, rfl⟩⟩

/-- One operation of each clause: an append, an operation that writes nothing, one that clears. -/
theorem witness_AccumulatorBytesAfterEachOperation :
    (∃ t d', (chan0 .inMessage [0x10] [0x11]).Presents 0 ⟨.inMessage, [0x10]⟩ 0x11 [] [] ∧
      exec .imAppend (chan0 .inMessage [0x10] [0x11]) = .next t ∧ t.dec? 0 = some d') ∧
    (∃ t d', (chan0 .inMessage tenOnes [0x7D]).Presents 0 ⟨.inMessage, tenOnes⟩ 0x7D [] [] ∧
      exec (.imEsc true) (chan0 .inMessage tenOnes [0x7D]) = .next t ∧ t.dec? 0 = some d') ∧
    (∃ t d', (chan0 .inMessage tenOnes [0x13]).Presents 0 ⟨.inMessage, tenOnes⟩ 0x13 [] [] ∧
      exec (.imEnd true) (chan0 .inMessage tenOnes [0x13]) = .next t ∧ t.dec? 0 = some d') :=
  ⟨⟨_, _, presents_chan0 _ _ _ _, rfl, rfl⟩, ⟨_, _, presents_chan0 _ _ _ _, rfl, rfl⟩,
    ⟨_, _, presents_chan0 _ _ _ _, rfl, rfl⟩⟩

theorem witness_OnlyImEndEmitsAFrame :
    (∃ t, (chan0 .inMessage [] [0x13]).Presents 0 ⟨.inMessage, []⟩ 0x13 [] [] ∧
      exec (.imEnd false) (chan0 .inMessage [] [0x13]) = .next t) ∧
    (∃ t, (chan0 .waitHeader [] [0x13]).Presents 0 ⟨.waitHeader, []⟩ 0x13 [] [] ∧
      exec (.whDiscard false .END) (chan0 .waitHeader [] [0x13]) = .next t ∧
      ¬ ∃ f, Instr.whDiscard false .END = .imEnd f) :=
  ⟨⟨_, presents_chan0 _ _ _ _, rfl⟩, ⟨_, presents_chan0 _ _ _ _, rfl, by simp⟩⟩

/-- Channel 0 in a reachable decoder state is within the invariants. -/
theorem wf_chan0 (st : DecState) (acc bytes : List Byte) (n : Nat) (h : Dec.wf Config.default ⟨st, acc⟩) :
    (chan0 st acc bytes n).Wf where
  cfg := witness_valid
  chans := rfl
  decs := by
    intro k hk
    rcases List.mem_cons.mp hk with rfl | hk
    · exact h
    · obtain rfl := List.mem_singleton.mp hk
      exact ⟨Nat.zero_le _, fun _ => rfl⟩
  work := by intro w hw; cases hw

theorem witness_NoFrameIsPartiallyDelivered :
    (chan0 .inMessage tenOnes [0x13]).Wf ∧ ∃ t, step (chan0 .inMessage tenOnes [0x13]) = .next t ∧
      t.events = (chan0 .inMessage tenOnes [0x13]).events ++ [.frameSink 0 tenOnes] :=
  ⟨wf_chan0 _ _ _ _ (by decide), _, rfl, rfl⟩

theorem witness_InReadyIsTheConsumedFlag :
    ((chan0 .inMessage tenOnes [0x41]).Presents 0 ⟨.inMessage, tenOnes⟩ 0x41 [] [] ∧
      Dec.wf (chan0 .inMessage tenOnes [0x41]).cfg ⟨.inMessage, tenOnes⟩ ∧
      (chan0 .inMessage tenOnes [0x41]).cfg.fused = false) ∧
    ((chan0 .inMessage tenOnes []).cfg.valid = true ∧ (chan0 .inMessage tenOnes []).work = none ∧
      (chan0 .inMessage tenOnes []).moves = [.clock 0] ∧
      (chan0 .inMessage tenOnes []).chans[0]? = some ⟨⟨.inMessage, tenOnes⟩, []⟩) :=
  ⟨⟨presents_chan0 _ _ _ _, by decide, rfl⟩, by decide, rfl, rfl, rfl⟩

theorem witness_FramePortShowsTheAccumulatorAtImEnd :
    (chan0 .inMessage tenOnes [0x13]).Wf ∧
    ∃ t, step (chan0 .inMessage tenOnes [0x13]) = .next t ∧ t.out.frame 0 = some tenOnes :=
  ⟨wf_chan0 _ _ _ _ (by decide), _, rfl, rfl⟩

theorem witness_ResponsePortAnswersEachRequestOnce :
    (∃ t, step (request tenOnes) = .next t ∧ (request tenOnes).work = none ∧
      (request tenOnes).moves.head? = some (.encode 0 tenOnes) ∧ tenOnes.length ≤ (request tenOnes).cfg.M) ∧
    (∃ t, step (request (0 :: tenOnes)) = .next t ∧ (request (0 :: tenOnes)).work = none ∧
      (request (0 :: tenOnes)).moves.head? = some (.encode 0 (0 :: tenOnes)) ∧
      (request (0 :: tenOnes)).cfg.M < (0 :: tenOnes).length) :=
  ⟨⟨_, rfl, rfl, rfl, by decide⟩, ⟨_, rfl, rfl, rfl, by decide⟩⟩

theorem witness_ResetValues : 0 < Config.default.NCHAN ∧ 1 < Config.default.NCHAN := by decide

/-- `rst` while a byte is presented and a frame is in progress. -/
def inReset (keep : Bool) : State := { chan0 .inMessage tenOnes [0x13] with moves := [.reset 0 keep] }

theorem witness_ResetMoveDropsTheFrameAndTakesNoTransition (keep : Bool) :
    (inReset keep).cfg.valid = true ∧ (inReset keep).work = none ∧ (inReset keep).moves = [.reset 0 keep] ∧
    (inReset keep).chans[0]? = some ⟨⟨.inMessage, tenOnes⟩, [0x13]⟩ := by cases keep <;> decide

theorem witness_AnIdleStepHoldsTheState :
    State.reset.cfg.valid = true ∧ State.reset.work = none ∧ State.reset.moves = [] ∧
    ({ State.reset with moves := [.idle] } : State).moves = [.idle] ∧
    (chan0 .inMessage [0x10] []).moves = [.clock 0] ∧
    (chan0 .inMessage [0x10] []).chans[0]? = some ⟨⟨.inMessage, [0x10]⟩, []⟩ := by decide

theorem witness_StepKeepsTheInvariants :
    (chan0 .afterEscape tenOnes [0x12]).Wf ∧ ∃ t, step (chan0 .afterEscape tenOnes [0x12]) = .next t :=
  ⟨wf_chan0 _ _ _ _ (by decide), _, rfl⟩

theorem witness_NoStepStopsWithinTheInvariants :
    (chan0 .afterEscape tenOnes [0x12]).Wf ∧
    ∀ m ∈ (chan0 .afterEscape tenOnes [0x12]).moves.head?, m.wf (chan0 .afterEscape tenOnes [0x12]).cfg := by
  refine ⟨wf_chan0 _ _ _ _ (by decide), ?_⟩
  rintro m hm
  obtain rfl := Option.some.inj hm
  decide

/-- The case of reset has no hypothesis. -/
theorem witness_NoCommandIsLeftInProgress :
    ∃ t, step (request [0x12]) = .next t ∧ (request [0x12]).work = none := ⟨_, rfl, rfl⟩

/-- A transition and a reset, each of which changes the decoder of channel 0. -/
theorem witness_OnlyATransitionOrAResetChangesADecoder :
    (∃ t, step (chan0 .inMessage [] [0x13]) = .next t ∧ t.dec? 0 ≠ (chan0 .inMessage [] [0x13]).dec? 0) ∧
    (∃ t, step (inReset true) = .next t ∧ t.dec? 0 ≠ (inReset true).dec? 0) :=
  ⟨⟨_, rfl, by decide⟩, ⟨_, rfl, by decide⟩⟩

/-- Two machines that differ in channel 1 alone. -/
theorem witness_AChannelDependsOnNoOther :
    ∃ s s' t t' : State, s ≠ s' ∧ s.cfg = s'.cfg ∧ s.work = none ∧ s'.work = none ∧
      s.moves.head? = s'.moves.head? ∧ s.chans[0]? = s'.chans[0]? ∧ step s = .next t ∧ step s' = .next t' :=
  ⟨chan0 .inMessage tenOnes [0x13],
    { chan0 .inMessage tenOnes [0x13] with chans := [⟨⟨.inMessage, tenOnes⟩, [0x13]⟩, ⟨⟨.inMessage, []⟩, [0x41]⟩] },
    _, _, by decide, rfl, rfl, rfl, rfl, rfl, rfl, rfl⟩

/-- Both channels about to complete a frame. -/
def bothAtEnd : State :=
  { State.reset with chans := [⟨⟨.inMessage, tenOnes⟩, [0x13]⟩, ⟨⟨.inMessage, []⟩, [0x13]⟩] }

/-- Two DECs, and an ENC beside a DEC; and, on a machine of two ENCs, two ENCs. -/
theorem witness_InterleavingChangesNoResult :
    bothAtEnd.Wf ∧ bothAtEnd.work = none ∧
    (Move.wf bothAtEnd.cfg (.clock 0) ∧ Move.wf bothAtEnd.cfg (.clock 1) ∧
      Move.drives (.clock 0) ≠ Move.drives (.clock 1)) ∧
    (Move.wf bothAtEnd.cfg (.encode 0 tenOnes) ∧ Move.wf bothAtEnd.cfg (.reset 0 true) ∧
      Move.drives (.encode 0 tenOnes) ≠ Move.drives (.reset 0 true)) ∧
    (State.resetOf { Config.default with NENC := 2 }).Wf ∧
    (Move.wf { Config.default with NENC := 2 } (.encode 0 []) ∧ Move.wf { Config.default with NENC := 2 } (.encode 1 []) ∧
      Move.drives (.encode 0 []) ≠ Move.drives (.encode 1 [])) := by
  refine ⟨⟨by decide, rfl, ?_, by intro w hw; cases hw⟩, rfl, by decide, by decide,
    ⟨by decide, rfl, ?_, by intro w hw; cases hw⟩, by decide⟩
  on_goal 2 =>
    intro k hk
    obtain rfl := List.eq_of_mem_replicate hk
    decide
  intro k hk
  simp only [bothAtEnd, List.mem_cons, List.not_mem_nil, or_false] at hk
  rcases hk with rfl | rfl <;> decide

theorem witness_MachineRunsTheDrivingLoop :
    (chan0 .inMessage tenOnes [0x12, 0x13] 3).Wf ∧ (chan0 .inMessage tenOnes [0x12, 0x13] 3).cfg.fused = false ∧
    (chan0 .inMessage tenOnes [0x12, 0x13] 3).work = none ∧
    (chan0 .inMessage tenOnes [0x12, 0x13] 3).moves = List.replicate 3 (.clock 0) ++ [] ∧
    (chan0 .inMessage tenOnes [0x12, 0x13] 3).chans[0]? = some ⟨⟨.inMessage, tenOnes⟩, [0x12, 0x13]⟩ :=
  ⟨wf_chan0 _ _ _ _ (by decide), rfl, rfl, rfl, rfl⟩

/-- A stream of two bytes that takes three transitions. -/
theorem witness_TheDrivingLoopEnds :
    Config.default.valid = true ∧ transCount Config.default ⟨.inMessage, []⟩ [0x12, 0x13] = 3 := by decide

theorem witness_FusedStepIsTransitionAndReplay :
    (fusedOf (chan0 .afterEscape tenOnes [0x12])).Presents 0 ⟨.afterEscape, tenOnes⟩ 0x12 [] [] ∧
    Dec.wf (fusedOf (chan0 .afterEscape tenOnes [0x12])).cfg ⟨.afterEscape, tenOnes⟩ ∧
    (fusedOf (chan0 .afterEscape tenOnes [0x12])).cfg.fused = true ∧
    (transition (fusedOf (chan0 .afterEscape tenOnes [0x12])).cfg ⟨.afterEscape, tenOnes⟩ 0x12).consumed = false :=
  ⟨⟨by decide, rfl, rfl, rfl⟩, by decide, rfl, by decide⟩

theorem witness_RoundTrip :
    Config.default.valid = true ∧ tenOnes.length ≤ Config.default.M ∧
    (⟨.inMessage, tenOnes⟩ : Dec).state ≠ .afterEscape := by decide

/-- A payload of M bytes sent to a decoder in the middle of a full frame. -/
def sending : State :=
  { chan0 .inMessage tenOnes [] with moves := sendMoves Config.default 0 0 (List.replicate 10 0x12) }

theorem witness_SendDeliversThePayload :
    sending.Wf ∧ sending.work = none ∧ sending.moves = sendMoves sending.cfg 0 0 (List.replicate 10 0x12) ∧
    0 < sending.cfg.NENC ∧ (List.replicate 10 (0x12 : Byte)).length ≤ sending.cfg.M ∧
    sending.chans[0]? = some ⟨⟨.inMessage, tenOnes⟩, []⟩ ∧ (⟨.inMessage, tenOnes⟩ : Dec).state ≠ .afterEscape :=
  ⟨⟨by decide, rfl, (wf_chan0 .inMessage tenOnes [] 1 (by decide)).decs, by intro w hw; cases hw⟩, rfl, rfl,
    by decide, by decide, rfl, by decide⟩

theorem witness_ResyncOnRepeatedStart :
    Config.default.valid = true ∧ Config.default.START = 0x12 ∧ Config.default.END = 0x13 ∧
    Config.default.ESC = 0x7D := by decide

/-- A feed while a byte is still to be consumed. -/
theorem witness_FeedAddsItsBytesAfterThoseNotYetConsumed :
    State.reset.cfg.valid = true ∧ ({ chan0 .inMessage [] [0x41] with moves := [.feed 0 [0x13]] } : State).work = none ∧
    ({ chan0 .inMessage [] [0x41] with moves := [.feed 0 [0x13]] } : State).moves = [.feed 0 [0x13]] ∧
    (chan0 .inMessage [] [0x41]).chans[0]? = some ⟨⟨.inMessage, []⟩, [0x41]⟩ := by decide

/-- A chunk that ends in the middle of an escape, an empty one, and the rest. -/
def chunked : State :=
  { chan0 .waitHeader [] [] with moves := [[0x12, 0x7D], [], [0x12, 0x13]].flatMap (feedMoves 0) ++ [.idle] }

theorem witness_ChunkBoundariesAreInvisible :
    chunked.Wf ∧ chunked.work = none ∧ chunked.chans[0]? = some ⟨⟨.waitHeader, []⟩, []⟩ ∧
    chunked.moves = [[0x12, 0x7D], [], [0x12, 0x13]].flatMap (feedMoves 0) ++ [.idle] :=
  ⟨⟨witness_valid, rfl, (wf_chan0 .waitHeader [] [] 1 (by decide)).decs, by intro w hw; cases hw⟩, rfl, rfl, rfl⟩

/-- M payload bytes, reserved ones among them, then a literal byte or an escaped START; a gap of noise and a frame. -/
theorem witness_OversizedFrameIsDroppedAndDecodingGoesOn :
    Config.default.valid = true ∧ (⟨.inMessage, tenOnes⟩ : Dec).state ≠ .afterEscape ∧
    (0x12 :: tenOnes.tail).length = Config.default.M ∧ isRes Config.default 0x01 = false ∧
    isRes Config.default Config.default.START = true ∧
    Config.default.ESC ∉ [(0x02 : Byte), 0x03, 0x13] ∧ [(0x41 : Byte), 0x42].length ≤ Config.default.M := by decide

theorem witness_StartOpensAFrameExceptAfterEscapeWithRoom :
    Config.default.valid = true ∧
    Dec.wf Config.default ⟨.afterEscape, tenOnes⟩ ∧ (⟨.afterEscape, tenOnes⟩ : Dec).len = Config.default.M ∧
    Dec.wf Config.default ⟨.afterEscape, tenOnes.tail⟩ ∧ (⟨.afterEscape, tenOnes.tail⟩ : Dec).len < Config.default.M ∧
    Dec.wf Config.default ⟨.waitHeader, []⟩ := by decide

/-- L2-33: two frames with noise before the second. -/
theorem witness_ConcatenatedFramesAreDeliveredInOrder :
    Config.default.valid = true ∧
    (∀ gp ∈ [(([] : List Byte), [(0x01 : Byte)]), ([0x00, 0x13, 0x7D], [0x12])],
      Config.default.START ∉ gp.1 ∧ gp.2.length ≤ Config.default.M) ∧ Config.default.START ∉ [(0x33 : Byte)] := by decide

theorem witness_FlushNeedsThreeBytes :
    Config.default.valid = true ∧
    Dec.wf Config.default ⟨.inMessage, tenOnes⟩ ∧ isRes Config.default 0x00 = false ∧
    [(0x00 : Byte), 0x7D].length ≤ 2 := by decide

/-- A delivered frame, and a frame in progress in each of its two states. -/
theorem witness_DeliveredFramesStandEncodedInTheStream :
    Config.default.valid = true ∧
    [0x41] ∈ (feed Config.default Dec.reset [0x55, 0x12, 0x41, 0x13]).2 ∧
    (feed Config.default Dec.reset [0x12, 0x41]).1.state = .inMessage ∧
    (feed Config.default Dec.reset [0x12, 0x41, 0x7D]).1.state = .afterEscape := by decide

theorem witness_ReachableDecoderStates :
    Config.default.valid = true ∧
    (∀ x ∈ tenOnes, isRes Config.default x = false) ∧ tenOnes.length ≤ Config.default.M := by decide

end Sys2Proof.Tests
end

section
/-! PROOFS. The statements of 10_state.md: what the ports show, what one step does to one channel, the reset values. -/

namespace Sys2Proof.Machine

/-! ### The frame of a transition (R25, R31) -/

theorem exists_dwInstr_eq_imEnd {f : Bool} {st : DecState} {k : ByteClass} :
    (∃ g, dwInstr f st k = .imEnd g) ↔ st = .inMessage ∧ k = .END := by
  cases f <;> cases st <;> cases k <;> simp [dwInstr]

/-- Only an END in InMessage emits a frame, and it emits the whole accumulator. -/
theorem transition_frame {c : Config} (hv : c.valid = true) (d : Dec) (b : Byte) :
    (transition c d b).frame = if d.state = .inMessage ∧ b = c.END then some d.acc else none := by
  obtain ⟨st, a⟩ := d
  cases st with
  | waitHeader =>
    simp only [transition, reduceCtorEq, false_and, if_false]
    split_ifs <;> rfl
  | inMessage =>
    by_cases hb : b = c.END
    · subst hb
      simp [transition_im_end hv]
    · simp only [transition, hb, if_false, and_false]
      split_ifs <;> rfl
  | afterEscape =>
    simp only [transition, reduceCtorEq, false_and, if_false]
    split_ifs <;> rfl

/-- A replay adds no frame: a fused step shows the frame of its first transition (R30). -/
theorem stepTrans_frame (c : Config) (d : Dec) (b : Byte) : (stepTrans c d b).frame = (transition c d b).frame := by
  unfold stepTrans
  split_ifs with h
  · rw [transition_replay, transition_unconsumed h.2]
  · rfl

theorem stepTrans_of_unfused {c : Config} (hf : c.fused = false) (d : Dec) (b : Byte) :
    stepTrans c d b = transition c d b := by
  simp [stepTrans, hf]

/-! ### What a step can do, by what drives it -/

/-- An operation that completes on a presented byte is the one its word selects, and commits the transition. -/
theorem State.Presents.exec_next {s t : State} {ch : Nat} {d : Dec} {b : Byte} {rest : List Byte} {ms : List Move}
    {i : Instr} (h : s.Presents ch d b rest ms) (he : Machine.exec i s = .next t) :
    dwInstr (full s.cfg d) d.state (cls s.cfg b) = i ∧
      t = s.commit { ch := ch, dec := d, byte := b, rest := rest, moves := ms } (transition s.cfg d b) := by
  obtain ⟨-, hp⟩ := presents_iff.mp h
  obtain ⟨hw, -⟩ := presented_iff.mp hp
  obtain ⟨-, hi, hc⟩ := exec_cases he
  refine ⟨Option.some.inj (h.selected.symm.trans hi), ?_⟩
  rcases hc with ⟨p, hp', ht⟩ | ⟨r, hr, -⟩ | ⟨b', w, hb, -⟩
  · obtain rfl := Option.some.inj (hp.symm.trans hp')
    exact ht
  · simp [request_none_of_presented hp] at hr
  · simp [payloadByte_none_of_work hw] at hb

/-- A completed step on a presented byte commits the transition, with its replay in the fused form. -/
theorem step_next_of_presented {s t : State} {p : Presented} (hp : s.presented = some p) (h : step s = .next t) :
    t = s.commit p (stepTrans s.cfg p.dec p.byte) := by
  obtain ⟨-, ⟨p', hp', ht⟩ | ⟨r, hr, -⟩ | ⟨b, w, hb, -⟩ | ⟨hn, -⟩⟩ := step_cases h
  · obtain rfl := Option.some.inj (hp.symm.trans hp')
    exact ht
  · simp [request_none_of_presented hp] at hr
  · obtain ⟨hw, -⟩ := presented_iff.mp hp
    simp [payloadByte_none_of_work hw] at hb
  · simp [fetch_of_presented hp] at hn

/-- The host's move of a state that forms no word is its whole step: no move leaves a byte to replay. -/
theorem step_of_hostMove {s t : State} (hv : s.cfg.valid = true) (hn : s.fetch = none) (h : hostMove s = .next t) :
    step s = .next t := by
  have hr : runSelected s = .next t := by simp [runSelected, hn, h]
  have hre : replayInStep (.next t) = .next t := by
    rcases hostMove_next h with ⟨w, -, rfl⟩ | ⟨-, ⟨-, rfl⟩ | ⟨ms, -, rfl⟩ | ⟨_, _, _, -, -, rfl⟩ |
      ⟨_, _, _, _, -, -, rfl⟩ | ⟨_, _, _, _, -, -, rfl⟩⟩ <;> rfl
  simp [step, hv, hr, hre]

/-- EVERYTHING A STEP CAN DO OUTSIDE A COMMAND when it answers next. It idles when no move is left, at an idle move, and
at a clock on a channel with no input. -/
theorem step_cases_outside_command {s t : State} (h : step s = .next t) (hw : s.work = none) :
    (∃ p, s.presented = some p ∧ t = s.commit p (stepTrans s.cfg p.dec p.byte)) ∨
      (∃ r, s.request = some r ∧ t = if s.cfg.M < r.payload.length then s.raiseFrameTooLarge r.enc r.moves
        else s.respondOk r.enc (encodeSeq s.cfg r.payload) r.moves) ∨
      ((s.moves.head?.bind Move.drives = none ∨
          ∃ ch d, s.moves.head? = some (.clock ch) ∧ s.chans[ch]? = some ⟨d, []⟩) ∧ t = s.idleStep s.moves.tail) ∨
      (∃ ch keep k ms, s.moves = .reset ch keep :: ms ∧ s.chans[ch]? = some k ∧ t = s.resetChan ch k keep ms) ∨
      ∃ ch q k ms, s.moves = .feed ch q :: ms ∧ s.chans[ch]? = some k ∧ t = s.startFeed ch k q ms := by
  obtain ⟨-, hp | hr | ⟨b, w, hb, -⟩ | ⟨hn, hh⟩⟩ := step_cases h
  · exact .inl hp
  · exact .inr (.inl hr)
  · simp [payloadByte_none_of_work hw] at hb
  · rcases hostMove_next hh with ⟨w, hw', -⟩ | ⟨-, ⟨hm, rfl⟩ | ⟨ms, hm, rfl⟩ | ⟨ch, k, ms, hm, hk, rfl⟩ | hres | hfeed⟩
    · simp [hw] at hw'
    · exact .inr (.inr (.inl ⟨.inl (by simp [hm]), by simp [hm]⟩))
    · exact .inr (.inr (.inl ⟨.inl (by simp [hm, Move.drives]), by simp [hm]⟩))
    · obtain ⟨d, _ | ⟨b, rest⟩⟩ := k
      · exact .inr (.inr (.inl ⟨.inr ⟨ch, d, by simp [hm], hk⟩, by simp [hm]⟩))
      · have hp : s.presented = some ⟨ch, d, b, rest, ms⟩ := presented_iff.mpr ⟨hw, hm, hk⟩
        simp [fetch_of_presented hp] at hn
    · exact .inr (.inr (.inr (.inl hres)))
    · exact .inr (.inr (.inr (.inr hfeed)))

/-- Inside a command no step changes a channel. -/
theorem step_chans_in_command {s t : State} {w : EncWork} (h : step s = .next t) (hw : s.work = some w) :
    t.chans = s.chans := by
  obtain ⟨-, ⟨p, hp, -⟩ | ⟨r, hr, -⟩ | ⟨b, w', -, rfl⟩ | ⟨-, hh⟩⟩ := step_cases h
  · simp [presented_iff, hw] at hp
  · simp [request_iff, hw] at hr
  · rfl
  · rcases hostMove_next hh with ⟨w', -, rfl⟩ | ⟨hw', -⟩
    · rfl
    · simp [hw] at hw'

/-! ### What one step does to one channel (R22, R23) -/

/-- A channel, and the frames it emits, after a move that drives it: a function of the channel and the move alone. -/
def Chan.driven (c : Config) : Move → Chan → Chan × List (List Byte)
  | .clock _, ⟨d, []⟩ => (⟨d, []⟩, [])
  | .clock _, ⟨d, b :: rest⟩ =>
    (⟨(stepTrans c d b).dec, if (stepTrans c d b).consumed then rest else b :: rest⟩, (stepTrans c d b).frames)
  | .reset _ keep, k => (⟨Dec.reset, if keep then k.input else []⟩, [])
  | .feed _ q, k => (⟨k.dec, k.input ++ q⟩, [])
  | .encode _ _, k => (k, [])
  | .idle, k => (k, [])

theorem framesOf_frameEvents (ch i : Nat) (f : Option (List Byte)) :
    framesOf ch (frameEvents i f) = if i = ch then f.toList else [] := by
  cases f <;> simp [frameEvents, framesOf]

/-- The channel that a move drives takes `Chan.driven`. -/
theorem step_driven_chan {s t : State} {ch : Nat} {m : Move} (h : step s = .next t) (hw : s.work = none)
    (hm : s.moves.head? = some m) (hd : m.drives = some (.dec ch)) :
    ∃ k, s.chans[ch]? = some k ∧ t.chans[ch]? = some (k.driven s.cfg m).1 ∧
      ∃ new, t.events = s.events ++ new ∧ framesOf ch new = (k.driven s.cfg m).2 := by
  rcases step_cases_outside_command h hw with ⟨p, hp, rfl⟩ | ⟨r, hr, -⟩ | ⟨hi | ⟨i, d, hi, hk⟩, rfl⟩ |
    ⟨i, keep, k, ms, hi, hk, rfl⟩ | ⟨i, q, k, ms, hi, hk, rfl⟩
  · obtain ⟨-, hi, hk⟩ := presented_iff.mp hp
    obtain rfl : .clock p.ch = m := by simpa [hi] using hm
    obtain rfl : p.ch = ch := by simpa [Move.drives] using hd
    obtain ⟨hl, -⟩ := List.getElem?_eq_some_iff.mp hk
    exact ⟨_, hk, by simp [Chan.driven, hl], _, rfl, by simp [framesOf_frameEvents, Chan.driven, Trans.frames]⟩
  · obtain ⟨-, hi, -⟩ := request_iff.mp hr
    obtain rfl : .encode r.enc r.payload = m := by simpa [hi] using hm
    cases hd
  · simp [hm, hd] at hi
  · obtain rfl : .clock i = m := by simpa [hi] using hm
    obtain rfl : i = ch := by simpa [Move.drives] using hd
    exact ⟨_, hk, hk, [], by simp, rfl⟩
  · obtain rfl : .reset i keep = m := by simpa [hi] using hm
    obtain rfl : i = ch := by simpa [Move.drives] using hd
    obtain ⟨hl, -⟩ := List.getElem?_eq_some_iff.mp hk
    exact ⟨_, hk, by simp [Chan.driven, hl], [], by simp, rfl⟩
  · obtain rfl : .feed i q = m := by simpa [hi] using hm
    obtain rfl : i = ch := by simpa [Move.drives] using hd
    obtain ⟨hl, -⟩ := List.getElem?_eq_some_iff.mp hk
    exact ⟨_, hk, by simp [Chan.driven, hl], [], by simp, rfl⟩

/-- A channel that the move does not drive keeps its state and emits no frame. -/
theorem step_undriven_chan {s t : State} {ch : Nat} (h : step s = .next t) (hw : s.work = none)
    (hd : s.moves.head?.bind Move.drives ≠ some (.dec ch)) :
    t.chans[ch]? = s.chans[ch]? ∧ ∃ new, t.events = s.events ++ new ∧ framesOf ch new = [] := by
  rcases step_cases_outside_command h hw with ⟨p, hp, rfl⟩ | ⟨r, -, rfl⟩ | ⟨-, rfl⟩ |
    ⟨i, keep, k, ms, hi, -, rfl⟩ | ⟨i, q, k, ms, hi, -, rfl⟩
  · obtain ⟨-, hi, -⟩ := presented_iff.mp hp
    have hne : p.ch ≠ ch := by simpa [hi, Move.drives] using hd
    exact ⟨by simp [hne], _, rfl, by simp [framesOf_frameEvents, hne]⟩
  · split_ifs
    · exact ⟨rfl, [], by simp, rfl⟩
    · exact ⟨rfl, _, rfl, rfl⟩
  · exact ⟨rfl, [], by simp, rfl⟩
  · have hne : i ≠ ch := by simpa [hi, Move.drives] using hd
    exact ⟨by simp [hne], [], by simp, rfl⟩
  · have hne : i ≠ ch := by simpa [hi, Move.drives] using hd
    exact ⟨by simp [hne], [], by simp, rfl⟩

/-! ### The ports (R31, R34) -/

/-- The frame port after a completed step. -/
theorem step_frame_iff {s t : State} {ch : Nat} {f : List Byte} (h : step s = .next t) :
    t.out.frame ch = some f ↔ ∃ rest ms, s.Presents ch ⟨.inMessage, f⟩ s.cfg.END rest ms := by
  obtain ⟨hv, hc⟩ := step_cases h
  constructor
  · intro hf
    rcases hc with ⟨p, hp, rfl⟩ | ⟨r, -, rfl⟩ | ⟨b, w, -, rfl⟩ | ⟨-, hh⟩
    · obtain ⟨i, ⟨st, a⟩, b, rest, ms⟩ := p
      simp only [State.commit_out, StepOut.frame, stepTrans_frame, transition_frame hv] at hf
      split_ifs at hf with hi he
      obtain ⟨rfl, rfl⟩ := he
      obtain rfl := Option.some.inj hf
      subst hi
      exact ⟨rest, ms, presents_iff.mpr ⟨hv, hp⟩⟩
    · split_ifs at hf <;> cases hf
    · cases hf
    · rcases hostMove_next hh with ⟨w, -, rfl⟩ | ⟨-, ⟨-, rfl⟩ | ⟨ms, -, rfl⟩ | ⟨_, _, _, -, -, rfl⟩ |
        ⟨_, _, _, _, -, -, rfl⟩ | ⟨_, _, _, _, -, -, rfl⟩⟩ <;> cases hf
  · rintro ⟨rest, ms, hp⟩
    rw [step_next_of_presented (presents_iff.mp hp).2 h]
    simp [StepOut.frame, stepTrans_frame, transition_frame hv]

theorem StepOut.frameValid_iff {o : StepOut} {ch : Nat} :
    o.frameValid ch = true ↔ ∃ f, o.frameLen ch = some f.length ∧ o.frame ch = some f := by
  cases h : o.frame ch <;> simp [StepOut.frameValid, StepOut.frameLen, h]

/-- A length up to `M` fits in `LW` bits (00_scope.md section 3). -/
theorem lt_two_pow_LW {c : Config} {n : Nat} (h : n ≤ c.M) : n < 2 ^ c.LW :=
  lt_of_lt_of_le (Nat.lt_succ_of_le h) (Nat.le_pow_clog (by decide) _)

/-- The response of a completed request. -/
theorem step_response_of_encode {s t : State} {e : Nat} {p : List Byte} (h : step s = .next t) (hw : s.work = none)
    (hm : s.moves.head? = some (.encode e p)) :
    t.out.response e =
      some (if s.cfg.M < p.length then (.frameTooLarge, none) else (.ok, some (encodeSeq s.cfg p))) := by
  rcases step_cases_outside_command h hw with ⟨q, hq, -⟩ | ⟨r, hr, rfl⟩ | ⟨hi | ⟨i, d, hi, -⟩, -⟩ |
    ⟨i, keep, k, ms, hi, -⟩ | ⟨i, q, k, ms, hi, -⟩
  · obtain ⟨-, hi, -⟩ := presented_iff.mp hq
    simp [hi] at hm
  · obtain ⟨-, hr, -⟩ := request_iff.mp hr
    obtain ⟨rfl, rfl⟩ : r.enc = e ∧ r.payload = p := by simpa [hr] using hm
    split_ifs <;> simp [StepOut.response]
  · simp [hm, Move.drives] at hi
  · simp [hm] at hi
  · simp [hi] at hm
  · simp [hi] at hm

/-- Outside a command an ENC responds to a request alone. -/
theorem exists_encode_of_step_response {s t : State} {e : Nat} {r : EncStatus × Option (List Byte)}
    (h : step s = .next t) (hw : s.work = none) (hr : t.out.response e = some r) :
    ∃ p, s.moves.head? = some (.encode e p) := by
  rcases step_cases_outside_command h hw with ⟨q, -, rfl⟩ | ⟨q, hq, rfl⟩ | ⟨-, rfl⟩ |
    ⟨i, keep, k, ms, -, -, rfl⟩ | ⟨i, q, k, ms, -, -, rfl⟩
  · cases hr
  · obtain ⟨-, hm, -⟩ := request_iff.mp hq
    have he : q.enc = e := by
      by_contra hne
      split_ifs at hr <;> simp [StepOut.response, hne] at hr
    exact ⟨q.payload, by simp [hm, he]⟩
  · cases hr
  · cases hr
  · cases hr

/-! ### The obligations -/

/-- Settles O30: of the ten transitions, only IM_END has a frame. -/
theorem onlyImEndEmitsAFrame : Obligations.OnlyImEndEmitsAFrame := by
  intro s t ch d b rest ms i h he
  obtain ⟨hv, -⟩ := presents_iff.mp h
  obtain ⟨hi, rfl⟩ := h.exec_next he
  have hend : (∃ f, i = .imEnd f) ↔ d.state = .inMessage ∧ b = s.cfg.END := by
    rw [← cls_eq_END hv, ← exists_dwInstr_eq_imEnd, hi]
  rw [hend]
  constructor
  · intro hb
    simp [transition_frame hv, hb, frameEvents]
  · intro hb
    simp [transition_frame hv, hb, frameEvents]

/-- Settles O32: an unfused step commits one transition, and a clock with no input is an idle step. -/
theorem inReadyIsTheConsumedFlag : Obligations.InReadyIsTheConsumedFlag := by
  constructor
  · intro s ch d b rest ms h hd hf
    have ⟨_, _, _, hk⟩ := h
    obtain ⟨hl, -⟩ := List.getElem?_eq_some_iff.mp hk
    obtain ⟨hacc, -⟩ := hd
    have hcommit := h.step hacc
    rw [stepTrans_of_unfused hf] at hcommit
    exact ⟨_, hcommit, by simp [StepOut.inReady], by simp [StepOut.inReady, hl]⟩
  · intro s ch d ms hv hw hm hk
    have hn : s.fetch = none := by
      simp [State.fetch, State.payloadByte, State.request, State.presented, hw, hm, hk]
    exact ⟨s.idleStep ms, step_of_hostMove hv hn (by simp [hostMove, hw, hm, hk]), rfl, rfl⟩

/-- Settles O33: `step_frame_iff`, and a frame is an accumulator, of at most `M` bytes within the invariants. -/
theorem framePortShowsTheAccumulatorAtImEnd : Obligations.FramePortShowsTheAccumulatorAtImEnd := by
  intro s t ch f h
  refine ⟨step_frame_iff h, StepOut.frameValid_iff, fun hs hf => ?_⟩
  obtain ⟨rest, ms, -, -, -, hk⟩ := (step_frame_iff h).mp hf
  obtain ⟨hacc, -⟩ := hs.decs _ (List.mem_of_getElem? hk)
  exact lt_two_pow_LW hacc

/-- Settles O34: a request gets its one response, and nothing else makes an ENC respond. -/
theorem responsePortAnswersEachRequestOnce : Obligations.ResponsePortAnswersEachRequestOnce := by
  intro s t e h hw
  constructor
  · constructor
    · intro hd
      obtain ⟨r, hr⟩ := Option.isSome_iff_exists.mp hd
      exact exists_encode_of_step_response h hw hr
    · rintro ⟨p, hm⟩
      simp [StepOut.encDone, step_response_of_encode h hw hm]
  · intro p hm
    have hr := step_response_of_encode h hw hm
    constructor
    · intro hle
      rw [if_neg (Nat.not_lt.mpr hle)] at hr
      simp [StepOut.encStatus, StepOut.outValid, StepOut.outData, StepOut.outLen, hr, EncStatus.code]
    · intro hlt
      rw [if_pos hlt] at hr
      simp [StepOut.encStatus, StepOut.outValid, StepOut.outData, hr, EncStatus.code]

/-- Settles O42: a step changes only the channel that its move drives, and of the moves that drive one, a feed and
a clock with no input keep the decoder. -/
theorem onlyATransitionOrAResetChangesADecoder : Obligations.OnlyATransitionOrAResetChangesADecoder := by
  intro s t ch h hne
  rcases hw : s.work with _ | w
  · by_cases hd : s.moves.head?.bind Move.drives = some (.dec ch)
    · obtain ⟨m, hm, hdm⟩ := Option.bind_eq_some_iff.mp hd
      obtain ⟨k, hk, hk', -⟩ := step_driven_chan h hw hm hdm
      rw [State.dec?, State.dec?, hk, hk'] at hne
      cases m with
      | clock i =>
        obtain rfl : i = ch := by simpa [Move.drives] using hdm
        obtain ⟨ms, hms⟩ := List.head?_eq_some_iff.mp hm
        obtain ⟨d, _ | ⟨b, rest⟩⟩ := k
        · exact absurd rfl hne
        · exact .inl ⟨d, b, rest, ms, (step_cases h).1, hw, hms, hk⟩
      | reset i keep =>
        obtain rfl : i = ch := by simpa [Move.drives] using hdm
        exact .inr ⟨rfl, keep, hm⟩
      | feed i q => exact absurd rfl hne
      | encode e p => cases hdm
      | idle => cases hdm
    · exact absurd (by simp [State.dec?, (step_undriven_chan h hw hd).1]) hne
  · exact absurd (by simp [State.dec?, step_chans_in_command h hw]) hne

/-- Settles O43: the driven channel takes `Chan.driven`, which looks at no other channel; an undriven one is
kept. -/
theorem aChannelDependsOnNoOther : Obligations.AChannelDependsOnNoOther := by
  intro s s' t t' ch hcfg hw hw' hmoves hchan h h'
  by_cases hd : s.moves.head?.bind Move.drives = some (.dec ch)
  · obtain ⟨m, hm, hdm⟩ := Option.bind_eq_some_iff.mp hd
    obtain ⟨k, hk, hc, new, he, hf⟩ := step_driven_chan h hw hm hdm
    obtain ⟨k', hk', hc', new', he', hf'⟩ := step_driven_chan h' hw' (hmoves ▸ hm) hdm
    obtain rfl : k = k' := Option.some.inj (hk.symm.trans (hchan.trans hk'))
    exact ⟨by rw [hc, hc', hcfg], new, new', he, he', by rw [hf, hf', hcfg]⟩
  · obtain ⟨hc, new, he, hf⟩ := step_undriven_chan h hw hd
    obtain ⟨hc', new', he', hf'⟩ := step_undriven_chan h' hw' (hmoves ▸ hd)
    exact ⟨by rw [hc, hc', hchan], new, new', he, he', by rw [hf, hf']⟩

/-- Settles O35: every channel of `State.resetOf` is at `Dec.reset`, and the ports show `StepOut.resetAll`. -/
theorem resetValues : Obligations.ResetValues := by
  intro c ch hch
  have hd : (State.resetOf c).dec? ch = some Dec.reset := by
    simp [State.dec?, State.resetOf, hch]
  exact ⟨⟨_, hd, rfl, rfl, rfl, fun j => memRead_beyond (Nat.zero_le j)⟩, rfl, rfl, fun e => ⟨rfl, rfl⟩⟩

end Sys2Proof.Machine
end

section
/-! PROOFS. The statements of 30_encoding.md: the decoder operation map row by row, and the state code that no row takes
and no state forms. -/

namespace Sys2Proof

/-! ### The rows of an operation map -/

/-- A map with a first row: that row's operation where its condition holds, and otherwise the map of the later rows. -/
theorem firstRow_cons_elim {α : Type} {n : Nat} (p m : BitVec n) (f : BitVec n → Instr) (rs : List (OpRow n))
    (w : BitVec n) (e : α) (g : Instr → α) :
    (firstRow (⟨p, m, f⟩ :: rs) w).elim e g = if w &&& m = p then g (f w) else (firstRow rs w).elim e g := by
  by_cases h : w &&& m = p <;> simp [firstRow, OpRow.accepts, h]

theorem firstRow_eq_none {n : Nat} {rows : List (OpRow n)} {w : BitVec n} (h : ∀ r ∈ rows, w &&& r.mask ≠ r.pattern) :
    firstRow rows w = none := by
  induction rows with
  | nil => rfl
  | cons r rs ih =>
    obtain ⟨hr, hrs⟩ := List.forall_mem_cons.mp h
    simp [firstRow, OpRow.accepts, hr, ih hrs]

theorem decode_dw_eq_elim (w : BitVec 5) : decode (.dw w) = (firstRow dwRows w).elim (.error .stateCode11) .ok := by
  rcases h : firstRow dwRows w with _ | i
  · exact decode_dw_none h
  · exact decode_dw_some h

/-! ### State code 0b11 (30_encoding.md R58) -/

/-- Every row of the decoder map compares both state bits, and none asks for 0b11. -/
theorem dwState_of_mem_dwRows : ∀ r ∈ dwRows, dwState r.mask = 0b11 ∧ dwState r.pattern ≠ 0b11 := by
  simp [dwRows, dwState]

theorem decode_dw_of_dwState_eq_three {w : BitVec 5} (h : dwState w = 0b11) :
    decode (.dw w) = .error .stateCode11 := by
  refine decode_dw_none (firstRow_eq_none fun r hr hacc => ?_)
  obtain ⟨hmask, hpat⟩ := dwState_of_mem_dwRows r hr
  apply hpat
  calc dwState r.pattern
      _ = dwState (w &&& r.mask) := by rw [hacc]
      _ = dwState w &&& dwState r.mask := BitVec.extractLsb'_and
      _ = 0b11 := by rw [h, hmask]; rfl

theorem DecState.code_ne_three (st : DecState) : st.code ≠ 0b11 := by cases st <;> decide

end Sys2Proof

namespace Sys2Proof.Machine

/-- A decode word is formed at a presented byte alone. -/
theorem exists_presented_of_fetch_dw {s : State} {w : BitVec 5} (h : s.fetch = some (.dw w)) :
    ∃ p, s.presented = some p ∧ w = decWord s.cfg p.dec p.byte := by
  rcases fetch_cases s with ⟨b, k, hb⟩ | ⟨r, hr⟩ | ⟨p, hp⟩ | ⟨hn, -⟩
  · simp [fetch_of_payloadByte hb] at h
  · simp [fetch_of_request hr] at h
  · exact ⟨p, hp, by simpa [fetch_of_presented hp] using h.symm⟩
  · simp [hn] at h

/-- Settles O2: the decoder tries `dwRows` from the first row on, each of them wants a state code other than 0b11, and a
formed word carries the code of a decoder state. -/
theorem decodeWordSelectsFirstRow : Obligations.DecodeWordSelectsFirstRow := by
  refine ⟨fun w => ?_, fun w h => decode_dw_of_dwState_eq_three h, fun s w h => ?_⟩
  · simp only [decode_dw_eq_elim, dwRows, firstRow_cons_elim]
    rfl
  · obtain ⟨p, -, rfl⟩ := exists_presented_of_fetch_dw h
    exact fun hw => p.dec.state.code_ne_three ((dwState_dwOf _ _ _).symm.trans hw)

end Sys2Proof.Machine
end

section
/-! PROOFS. The statements of 40_encoder.md: the one answer of ENCODE. -/

namespace Sys2Proof.Machine

/-! ### The sequence of a payload (R67) -/

/-- The per-byte operation of ENCODE, with its test as R67 writes it. -/
theorem encByte_eq_ite (c : Config) (b : Byte) :
    encByte c b = if b = c.START ∨ b = c.END ∨ b = c.ESC then [c.ESC, b] else [b] := by
  simp only [encByte, isRes_iff, encEscBytes, encLitBytes]

theorem stuff_eq_flatMap (c : Config) (p : List Byte) : stuff c p = p.flatMap (encByte c) := by
  induction p with
  | nil => rfl
  | cons b p ih => rw [stuff_cons, List.flatMap_cons, ih]

/-! ### The answer to a request (R67, R68) -/

theorem exec_encode_of_le {s : State} {r : Request} (hv : s.cfg.valid = true) (hr : s.request = some r)
    (h : r.payload.length ≤ s.cfg.M) :
    exec .encode s = .next (s.respondOk r.enc (encodeSeq s.cfg r.payload) r.moves) := by
  rw [exec_encode_eq s hv hr, if_neg (Nat.not_lt.mpr h)]

theorem exec_encode_of_lt {s : State} {r : Request} (hv : s.cfg.valid = true) (hr : s.request = some r)
    (h : s.cfg.M < r.payload.length) : exec .encode s = .next (s.raiseFrameTooLarge r.enc r.moves) := by
  rw [exec_encode_eq s hv hr, if_pos h]

/-- Between commands there is no working sequence for a response to end. -/
theorem State.respondOk_of_work_none {s : State} (hw : s.work = none) (e : Nat) (q : List Byte) (ms : List Move) :
    s.respondOk e q ms =
      { s with moves := ms, out := .enc e .ok (some q), events := s.events ++ [.byteSink e q] } := by
  rw [State.respondOk, ← hw]

/-- Settles O18: a request selects ENCODE, whose size guard picks one of two answers, and the sequence that it emits is
the `flatMap` of its per-byte operation between the two sentinels. -/
theorem encodeAnswersOnceWithTheSequenceOrTheError : Obligations.EncodeAnswersOnceWithTheSequenceOrTheError := by
  intro s e p ms hv hw hm he
  have hr : s.request = some ⟨e, p, ms⟩ := request_iff.mpr ⟨hw, hm, he⟩
  refine ⟨fetch_of_request hr, fun hle => ?_, fun hlt => ?_⟩
  · refine ⟨encodeSeq s.cfg p, _, exec_encode_of_le hv hr hle, ?_, State.respondOk_of_work_none hw _ _ _, ?_⟩
    · simp only [encodeSeq, stuff_eq_flatMap, ← encByte_eq_ite]
    · simp [StepOut.encStatus, StepOut.outValid, StepOut.outData, StepOut.response, EncStatus.code]
  · refine ⟨_, exec_encode_of_lt hv hr hlt, rfl, ?_⟩
    simp [StepOut.encStatus, StepOut.outValid, StepOut.outData, StepOut.response, EncStatus.code]

end Sys2Proof.Machine
end

section
/-! PROOFS. The statements of 41_decoder.md: the transition on a presented byte as a whole, each of its ten operations,
and the replay of the byte that a resync leaves. -/

namespace Sys2Proof

/-! ### The fields that the mask of a row keeps (30_encoding.md R57) -/

theorem dwOf_and_state_cls (f : Bool) (st : DecState) (k : ByteClass) :
    dwOf f st k &&& 0b01111 = dwOf false st k := by
  cases f <;> cases st <;> cases k <;> rfl

theorem dwOf_and_state (f : Bool) (st : DecState) (k : ByteClass) :
    dwOf f st k &&& 0b01100 = dwOf false st .OTHER := by
  cases f <;> cases st <;> cases k <;> rfl

theorem dwOf_and_full_state (f : Bool) (st : DecState) (k : ByteClass) :
    dwOf f st k &&& 0b11100 = dwOf f st .OTHER := by
  cases f <;> cases st <;> cases k <;> rfl

/-! ### The operations that several classes select -/

theorem dwInstr_waitHeader_of_ne {k : ByteClass} (hk : k ≠ .START) (f : Bool) :
    dwInstr f .waitHeader k = .whDiscard f k := by
  cases k with
  | START => exact absurd rfl hk
  | OTHER | END | ESC => rfl

theorem dwInstr_afterEscape_of_ne {k : ByteClass} (hk : k ≠ .OTHER) (f : Bool) :
    dwInstr f .afterEscape k = if f then .aeOverflow k else .aeAppend k := by
  cases k with
  | OTHER => exact absurd rfl hk
  | START | END | ESC => rfl

theorem ByteClass.code_ne_zero {k : ByteClass} (hk : k ≠ .OTHER) : k.code ≠ 0b00 :=
  fun h => hk (ByteClass.code_injective h)

end Sys2Proof

namespace Sys2Proof.Machine

theorem cls_ne_OTHER {c : Config} {b : Byte} (h : isRes c b = true) : cls c b ≠ .OTHER :=
  fun hc => by simp [cls_eq_OTHER.mp hc] at h

/-- The one effect of the four resync sites (60_exceptions.md R120). -/
theorem effectOf_resync {i : Instr} (h : resyncKind i ≠ none) : effectOf i = some fun _ d _ => .ok (resync d) := by
  cases i with
  | imResyncStart | imOverflow | aeBadEscape | aeOverflow => rfl
  | _ => exact absurd rfl h

theorem frameEvents_eq_map (ch : Nat) (f : Option (List Byte)) :
    frameEvents ch f = f.toList.map (Event.frameSink ch) := by
  cases f <;> rfl

/-! ### The two next states of a transition without a frame -/

/-- The state after a transition that consumes its byte and emits no frame. -/
def State.consume (s : State) (ch : Nat) (d : Dec) (rest : List Byte) (ms : List Move) : State :=
  { s with chans := s.chans.set ch ⟨d, rest⟩, moves := ms, out := .dec ch true none }

/-- The state after a resync: an empty WaitHeader, its byte still presented (60_exceptions.md R120). -/
def State.dropFrame (s : State) (ch : Nat) (b : Byte) (rest : List Byte) (ms : List Move) : State :=
  { s with chans := s.chans.set ch ⟨⟨.waitHeader, []⟩, b :: rest⟩, moves := ms, out := .dec ch false none }

theorem State.commit_eq_consume (s : State) (p : Presented) (d : Dec) :
    s.commit p ⟨d, true, none⟩ = s.consume p.ch d p.rest p.moves := by
  simp [State.commit, State.consume, frameEvents]

theorem State.commit_eq_dropFrame (s : State) (p : Presented) (d : Dec) :
    s.commit p (resync d) = s.dropFrame p.ch p.byte p.rest p.moves := by
  simp [State.commit, State.dropFrame, frameEvents, resync, accClear]

theorem State.consume_dropFrame (s : State) (ch : Nat) (b : Byte) (d : Dec) (rest rest' : List Byte)
    (ms ms' : List Move) : (s.dropFrame ch b rest ms).consume ch d rest' ms' = s.consume ch d rest' ms' := by
  simp [State.dropFrame, State.consume]

section Presented

variable {s : State} {ch : Nat} {d : Dec} {st : DecState} {a : Memory} {b : Byte} {rest : List Byte} {ms : List Move}
  {i : Instr}

/-! ### The operation on a presented byte -/

theorem State.Presents.formsRow (h : s.Presents ch ⟨st, a⟩ b rest ms)
    (hi : dwInstr (full s.cfg ⟨st, a⟩) st (cls s.cfg b) = i) {p m : BitVec 5}
    (hrow : dwOf (full s.cfg ⟨st, a⟩) st (cls s.cfg b) &&& m = p) : s.FormsRow p m i :=
  ⟨_, h.fetch, hrow, hi ▸ decode_dwOf _ _ _⟩

/-- The rows that ask for a state and a class, full or not. -/
theorem State.Presents.formsRow_state_cls (h : s.Presents ch ⟨st, a⟩ b rest ms)
    (hi : dwInstr (full s.cfg ⟨st, a⟩) st (cls s.cfg b) = i) {k : ByteClass} (hk : cls s.cfg b = k) {p : BitVec 5}
    (hp : dwOf false st k = p) : s.FormsRow p 0b01111 i :=
  h.formsRow hi (by rw [dwOf_and_state_cls, hk, hp])

theorem State.Presents.exec_consume (h : s.Presents ch d b rest ms)
    (hi : dwInstr (full s.cfg d) d.state (cls s.cfg b) = i) {f : Config → Dec → Byte → Except Fault Trans} {d' : Dec}
    (hf : effectOf i = some f) (ht : f s.cfg d b = .ok ⟨d', true, none⟩) :
    Machine.exec i s = .next (s.consume ch d' rest ms) := by
  rw [h.exec hi hf ht, State.commit_eq_consume]

theorem State.Presents.exec_resync (h : s.Presents ch d b rest ms)
    (hi : dwInstr (full s.cfg d) d.state (cls s.cfg b) = i) (hr : resyncKind i ≠ none) :
    Machine.exec i s = .next (s.dropFrame ch b rest ms) := by
  rw [h.exec hi (effectOf_resync hr) rfl, State.commit_eq_dropFrame]

theorem State.Presents.exec_whStart (h : s.Presents ch ⟨.waitHeader, a⟩ s.cfg.START rest ms) :
    Machine.exec (.whStart (decide (a.length = s.cfg.M))) s = .next (s.consume ch ⟨.inMessage, []⟩ rest ms) :=
  h.exec_consume (by rw [cls_START]; rfl) rfl rfl

theorem State.Presents.exec_whDiscard (h : s.Presents ch ⟨.waitHeader, a⟩ b rest ms) (hb : b ≠ s.cfg.START) :
    Machine.exec (.whDiscard (decide (a.length = s.cfg.M)) (cls s.cfg b)) s =
      .next (s.consume ch ⟨.waitHeader, a⟩ rest ms) :=
  h.exec_consume (dwInstr_waitHeader_of_ne (mt cls_eq_START.mp hb) _) rfl rfl

/-! ### The replay after a resync (R91) -/

/-- The byte that a resync leaves, presented again to the empty WaitHeader. -/
theorem State.Presents.presents_dropFrame (h : s.Presents ch d b rest (.clock ch :: ms)) :
    (s.dropFrame ch b rest (.clock ch :: ms)).Presents ch ⟨.waitHeader, []⟩ b rest ms := by
  obtain ⟨hv, hw, -, hk⟩ := h
  obtain ⟨hl, -⟩ := List.getElem?_eq_some_iff.mp hk
  exact ⟨hv, hw, rfl, List.getElem?_set_self hl⟩

/-- An empty accumulator has room, whatever the configuration (R7). -/
theorem decide_zero_eq_M {c : Config} (hv : c.valid = true) : decide (0 = c.M) = false := by
  obtain ⟨-, -, -, hM, -⟩ := valid_iff.mp hv
  exact decide_eq_false (by omega)

theorem State.Presents.replay_whStart (h : s.Presents ch d s.cfg.START rest (.clock ch :: ms)) :
    Machine.exec (.whStart false) (s.dropFrame ch s.cfg.START rest (.clock ch :: ms)) =
      .next (s.consume ch ⟨.inMessage, []⟩ rest ms) := by
  have hx := State.Presents.exec_whStart h.presents_dropFrame
  rwa [List.length_nil, decide_zero_eq_M h.presents_dropFrame.1, State.consume_dropFrame] at hx

theorem State.Presents.replay_whDiscard (h : s.Presents ch d b rest (.clock ch :: ms)) (hb : b ≠ s.cfg.START) :
    Machine.exec (.whDiscard false (cls s.cfg b)) (s.dropFrame ch b rest (.clock ch :: ms)) =
      .next (s.consume ch ⟨.waitHeader, []⟩ rest ms) := by
  have hx := h.presents_dropFrame.exec_whDiscard hb
  rwa [List.length_nil, decide_zero_eq_M h.presents_dropFrame.1, State.consume_dropFrame] at hx

theorem State.Presents.replay_whDiscard_OTHER (h : s.Presents ch d b rest (.clock ch :: ms))
    (hb : isRes s.cfg b = false) :
    Machine.exec (.whDiscard false .OTHER) (s.dropFrame ch b rest (.clock ch :: ms)) =
      .next (s.consume ch ⟨.waitHeader, []⟩ rest ms) := by
  obtain ⟨hne, -⟩ := not_isRes_iff.mp hb
  rw [← cls_eq_OTHER.mpr hb]
  exact h.replay_whDiscard hne

end Presented

/-! ### The obligations -/

/-- Settles O7: the commit of the transition function, its frame written as a list of events. -/
theorem selectedOperationIsTheTransitionFunction : Obligations.SelectedOperationIsTheTransitionFunction := by
  intro s ch d b rest ms h hd
  obtain ⟨hv, hp⟩ := presents_iff.mp h
  obtain ⟨hacc, -⟩ := hd
  obtain ⟨i, hi, he⟩ := exec_of_presented hv hp hacc
  refine ⟨i, hi, ?_⟩
  rw [he, State.commit, frameEvents_eq_map]

/-- Settles O8: the row keeps state and class, and the effect clears the accumulator. -/
theorem whStartOpensAFrame : Obligations.WhStartOpensAFrame := by
  intro s ch a rest ms h
  exact ⟨h.formsRow_state_cls (by rw [cls_START]; rfl) (cls_START _) (by decide), h.exec_whStart⟩

/-- Settles O9: the row keeps the state alone, and only START is taken by the row before it. -/
theorem whDiscardSkipsTheByte : Obligations.WhDiscardSkipsTheByte := by
  intro s ch a b rest ms h hb
  refine ⟨h.formsRow (dwInstr_waitHeader_of_ne (mt cls_eq_START.mp hb) _) ?_, h.exec_whDiscard hb⟩
  exact (dwOf_and_state _ _ _).trans (by decide)

/-- Settles O10: the row keeps state and class, not `full`. -/
theorem imEscEntersAfterEscape : Obligations.ImEscEntersAfterEscape := by
  intro s ch a rest ms h
  have hi : dwInstr (full s.cfg ⟨.inMessage, a⟩) .inMessage (cls s.cfg s.cfg.ESC) =
      .imEsc (decide (a.length = s.cfg.M)) := by rw [cls_ESC h.1]; rfl
  exact ⟨h.formsRow_state_cls hi (cls_ESC h.1) (by decide), h.exec_consume hi rfl rfl⟩

/-- Settles O11: `AccSeq` reads the whole accumulator, and the commit shows it at the port and as an event. -/
theorem imEndDeliversTheFrame : Obligations.ImEndDeliversTheFrame := by
  intro s ch a rest ms h
  have hi : dwInstr (full s.cfg ⟨.inMessage, a⟩) .inMessage (cls s.cfg s.cfg.END) =
      .imEnd (decide (a.length = s.cfg.M)) := by rw [cls_END h.1]; rfl
  have ht : imEnd s.cfg ⟨.inMessage, a⟩ s.cfg.END = .ok ⟨⟨.waitHeader, []⟩, true, some a⟩ := by
    simp [imEnd, accClear]
  refine ⟨h.formsRow_state_cls hi (cls_END h.1) (by decide), _, h.exec hi rfl ht, rfl, ?_, ?_⟩
  · simp [StepOut.frameValid, StepOut.frame]
  · simp [StepOut.frameLen, StepOut.frame]

/-- Settles O12: a resync whose byte, a START, opens a frame when it is replayed. -/
theorem imResyncStartReplaysTheStart : Obligations.ImResyncStartReplaysTheStart := by
  intro s ch a rest ms h
  have hi : dwInstr (full s.cfg ⟨.inMessage, a⟩) .inMessage (cls s.cfg s.cfg.START) =
      .imResyncStart (decide (a.length = s.cfg.M)) := by rw [cls_START]; rfl
  refine ⟨h.formsRow_state_cls hi (cls_START _) (by decide), rfl, _, h.exec_resync hi nofun, rfl, ?_⟩
  rintro ms' rfl
  exact h.replay_whStart

/-- Settles O13: with room and a class of OTHER the word is that of IM_APPEND, and the append succeeds. -/
theorem imAppendStoresTheByte : Obligations.ImAppendStoresTheByte := by
  intro s ch a b rest ms h hb ha
  have hf : full s.cfg ⟨.inMessage, a⟩ = false := decide_eq_false ha.ne
  have hk := cls_eq_OTHER.mpr hb
  have hw : decWord s.cfg ⟨.inMessage, a⟩ b = 0b00100 := by
    rw [decWord, hf, hk]
    exact (by decide : dwOf false .inMessage .OTHER = 0b00100)
  refine ⟨?_, h.exec_consume (by rw [hf, hk]; rfl) rfl ?_⟩
  · rw [h.fetch, hw]
  · rw [imAppend, accAppend_ok b ha]

/-- Settles O14: a resync whose byte is of class OTHER, so its replay discards it. -/
theorem imOverflowDropsTheFrame : Obligations.ImOverflowDropsTheFrame := by
  intro s ch a b rest ms h hb ha
  have hf : full s.cfg ⟨.inMessage, a⟩ = true := decide_eq_true ha
  have hk := cls_eq_OTHER.mpr hb
  have hw : decWord s.cfg ⟨.inMessage, a⟩ b = 0b10100 := by
    rw [decWord, hf, hk]
    exact (by decide : dwOf true .inMessage .OTHER = 0b10100)
  refine ⟨?_, rfl, _, h.exec_resync (by rw [hf, hk]; rfl) nofun, rfl, ?_⟩
  · rw [h.fetch, hw]
  · rintro ms' rfl
    exact h.replay_whDiscard_OTHER hb

/-- Settles O15: the row keeps `full` and the state, the row before it takes OTHER alone, and the append succeeds. -/
theorem aeAppendStoresTheReservedByte : Obligations.AeAppendStoresTheReservedByte := by
  intro s ch a b rest ms h hb ha
  have hf : full s.cfg ⟨.afterEscape, a⟩ = false := decide_eq_false ha.ne
  have hk := cls_ne_OTHER hb
  have hi : dwInstr (full s.cfg ⟨.afterEscape, a⟩) .afterEscape (cls s.cfg b) = .aeAppend (cls s.cfg b) := by
    rw [dwInstr_afterEscape_of_ne hk, hf]; rfl
  refine ⟨h.formsRow hi ?_, ByteClass.code_ne_zero hk, h.exec_consume hi rfl ?_⟩
  · rw [dwOf_and_full_state, hf]
    decide
  · rw [aeAppend, accAppend_ok b ha]

/-- Settles O16: a resync whose replay goes by whether its byte, of a class other than OTHER, is START. -/
theorem aeOverflowDropsTheFrame : Obligations.AeOverflowDropsTheFrame := by
  intro s ch a b rest ms h hb ha
  have hf : full s.cfg ⟨.afterEscape, a⟩ = true := decide_eq_true ha
  have hk := cls_ne_OTHER hb
  have hi : dwInstr (full s.cfg ⟨.afterEscape, a⟩) .afterEscape (cls s.cfg b) = .aeOverflow (cls s.cfg b) := by
    rw [dwInstr_afterEscape_of_ne hk, hf]; rfl
  refine ⟨h.formsRow hi ?_, ByteClass.code_ne_zero hk, rfl, _, h.exec_resync hi nofun, rfl, ?_⟩
  · rw [dwOf_and_full_state, hf]
    decide
  · rintro ms' rfl
    constructor
    · rintro rfl
      exact h.replay_whStart
    · exact h.replay_whDiscard

/-- Settles O17: a resync at class OTHER whatever `full` is, so its replay discards the byte. -/
theorem aeBadEscapeDropsTheFrame : Obligations.AeBadEscapeDropsTheFrame := by
  intro s ch a b rest ms h hb
  have hk := cls_eq_OTHER.mpr hb
  have hi : dwInstr (full s.cfg ⟨.afterEscape, a⟩) .afterEscape (cls s.cfg b) =
      .aeBadEscape (decide (a.length = s.cfg.M)) := by rw [hk]; rfl
  refine ⟨h.formsRow_state_cls hi hk (by decide), rfl, _, h.exec_resync hi nofun, rfl, ?_⟩
  rintro ms' rfl
  exact h.replay_whDiscard_OTHER hb

end Sys2Proof.Machine
end

section
/-! PROOFS. The statements of 42_stream.md: what a step adds to the events, the feed of an encoded payload, and the
driving loop that the unfused machine runs. -/

namespace Sys2Proof.Machine

/-! ### The events of one step (R103, R104) -/

theorem mem_frameEvents {i : Nat} {g : Option (List Byte)} {e : Event} :
    e ∈ frameEvents i g ↔ ∃ f, g = some f ∧ e = .frameSink i f := by
  cases g <;> simp [frameEvents]

/-- EVERYTHING A STEP CAN ADD TO THE EVENTS: the frame that its transition shows at the port, nothing, or a command's
sequence. -/
theorem step_events {s t : State} (h : step s = .next t) :
    (∃ i consumed g, t.out = .dec i consumed g ∧ t.events = s.events ++ frameEvents i g) ∨
      t.events = s.events ∨ ∃ e q, t.events = s.events ++ [.byteSink e q] := by
  obtain ⟨-, ⟨p, -, rfl⟩ | ⟨r, -, rfl⟩ | ⟨b, w, -, rfl⟩ | ⟨-, hh⟩⟩ := step_cases h
  · exact .inl ⟨_, _, _, rfl, rfl⟩
  · split_ifs
    · exact .inr (.inl rfl)
    · exact .inr (.inr ⟨_, _, rfl⟩)
  · exact .inr (.inl rfl)
  · rcases hostMove_next hh with ⟨w, -, rfl⟩ | ⟨-, ⟨-, rfl⟩ | ⟨ms, -, rfl⟩ | ⟨_, _, _, -, -, rfl⟩ |
      ⟨_, _, _, _, -, -, rfl⟩ | ⟨_, _, _, _, -, -, rfl⟩⟩
    · exact .inr (.inr ⟨_, _, rfl⟩)
    all_goals exact .inr (.inl rfl)

/-- A FrameSink event is the only new event of its step, and its frame stands at the channel's frame port. -/
theorem step_new_frameSink {s t : State} {ch : Nat} {f : List Byte} {new : List Event} (h : step s = .next t)
    (he : t.events = s.events ++ new) (hf : .frameSink ch f ∈ new) :
    new = [.frameSink ch f] ∧ t.out.frame ch = some f := by
  rcases step_events h with ⟨i, consumed, g, hout, hev⟩ | hev | ⟨e, q, hev⟩
  · obtain rfl : new = frameEvents i g := List.append_cancel_left (he.symm.trans hev)
    obtain ⟨f', rfl, hff⟩ := mem_frameEvents.mp hf
    obtain ⟨rfl, rfl⟩ := Event.frameSink.inj hff
    exact ⟨rfl, by simp [hout, StepOut.frame]⟩
  · obtain rfl : new = [] := List.append_right_eq_self.mp (he.symm.trans hev)
    cases hf
  · obtain rfl : new = [.byteSink e q] := List.append_cancel_left (he.symm.trans hev)
    simp at hf

/-- Settles O31: a frame at a port is the accumulator at an END in InMessage, which the invariants bound. -/
theorem noFrameIsPartiallyDelivered : Obligations.NoFrameIsPartiallyDelivered := by
  intro s t ch f new hs h he hf
  obtain ⟨hnew, hport⟩ := step_new_frameSink h he hf
  obtain ⟨rest, ms, hp⟩ := (step_frame_iff h).mp hport
  have ⟨_, _, _, hk⟩ := hp
  obtain ⟨hacc, -⟩ := hs.decs _ (List.mem_of_getElem? hk)
  exact ⟨hacc, hnew, rest, ms, hp⟩

/-! ### The machine as a driving loop (R98) -/

/-- State `s` is where a driving loop over channel `ch` that started in `s₀` stands once it has done `l`: the channel
holds the loop's decoder and remaining bytes, its frames follow the events of `s₀`, and no other channel differs. -/
structure State.AtLoop (s₀ s : State) (ch : Nat) (l : LoopState) : Prop where
  cfg : s.cfg = s₀.cfg
  work : s.work = none
  chans : s.chans = s₀.chans.set ch ⟨l.dec, l.rest⟩
  events : s.events = s₀.events ++ l.frames.map (Event.frameSink ch)
  dec : l.dec.wf s₀.cfg

/-- With no byte to present, a clock is an idle step (41_decoder.md R96). -/
theorem step_of_clock_no_input {s : State} {ch : Nat} {d : Dec} {ms : List Move} (hv : s.cfg.valid = true)
    (hw : s.work = none) (hm : s.moves = .clock ch :: ms) (hk : s.chans[ch]? = some ⟨d, []⟩) :
    step s = .next (s.idleStep ms) := by
  have hn : s.fetch = none := by
    simp [State.fetch, State.payloadByte, State.request, State.presented, hw, hm, hk]
  exact step_of_hostMove hv hn (by simp [hostMove, hw, hm, hk])

theorem Dec.wf_transition {c : Config} {d : Dec} (h : d.wf c) (b : Byte) : (transition c d b).dec.wf c := by
  obtain ⟨hacc, hempty⟩ := h
  exact transition_keeps hacc hempty b

section Loop

variable {s₀ s : State} {ch : Nat} {l : LoopState} {ms : List Move}

/-- A loop that has not begun. -/
theorem State.AtLoop.start {d : Dec} {bs : List Byte} (hw : s.work = none) (hk : s.chans[ch]? = some ⟨d, bs⟩)
    (hd : d.wf s.cfg) : s.AtLoop s ch ⟨d, [], bs⟩ where
  cfg := rfl
  work := hw
  chans := by
    obtain ⟨hl, hget⟩ := List.getElem?_eq_some_iff.mp hk
    rw [← hget, List.set_getElem_self]
  events := by simp
  dec := hd

/-- One step on the channel is one pass of the loop: a transition on the byte at the cursor, or nothing at the end of
the bytes. -/
theorem State.AtLoop.step (h : s₀.AtLoop s ch l) (hv : s₀.cfg.valid = true) (hf : s₀.cfg.fused = false)
    (hch : ch < s₀.chans.length) (hm : s.moves = .clock ch :: ms) :
    ∃ t, Machine.step s = .next t ∧ t.moves = ms ∧ s₀.AtLoop t ch (loopPass s₀.cfg l) := by
  obtain ⟨hcfg, hw, hchans, hev, hd⟩ := h
  obtain ⟨d, fs, bs⟩ := l
  rw [← hcfg] at hv hf
  have hk : s.chans[ch]? = some ⟨d, bs⟩ := by rw [hchans, List.getElem?_set_self hch]
  cases bs with
  | nil =>
    exact ⟨_, step_of_clock_no_input hv hw hm hk, rfl, hcfg, hw, hchans, hev, hd⟩
  | cons b rest =>
    have hp : s.Presents ch d b rest ms := ⟨hv, hw, hm, hk⟩
    have hstep := hp.step (hcfg ▸ hd.1)
    rw [stepTrans_of_unfused hf, hcfg] at hstep
    refine ⟨_, hstep, rfl, hcfg, hw, ?_, ?_, Dec.wf_transition hd b⟩
    · simp [hchans, loopPass]
    · simp [hev, loopPass, frameEvents_eq_map, Trans.frames]

/-- `n` steps on the channel are `n` passes of the loop. -/
theorem State.AtLoop.run (hv : s₀.cfg.valid = true) (hf : s₀.cfg.fused = false) (hch : ch < s₀.chans.length)
    {n : Nat} (h : s₀.AtLoop s ch l) (hm : s.moves = List.replicate n (.clock ch) ++ ms) :
    ∃ t, Machine.run n s = .next t ∧ t.moves = ms ∧ s₀.AtLoop t ch (loopPasses s₀.cfg n l) := by
  induction n generalizing s l with
  | zero => exact ⟨s, rfl, hm, h⟩
  | succ n ih =>
    obtain ⟨u, hstep, hmu, hu⟩ := h.step hv hf hch hm
    rw [run_succ hstep]
    exact ih hu hmu

end Loop

/-- Settles O45: each step keeps the machine where the driving loop stands. -/
theorem machineRunsTheDrivingLoop : Obligations.MachineRunsTheDrivingLoop := by
  intro n s ch d bs ms hs hf hw hm hk
  obtain ⟨hl, -⟩ := List.getElem?_eq_some_iff.mp hk
  have hstart := State.AtLoop.start hw hk (hs.decs _ (List.mem_of_getElem? hk))
  obtain ⟨t, hrun, hmt, ht⟩ := hstart.run hs.cfg hf hl hm
  exact ⟨t, hrun, ht.cfg, hmt, ht.chans, ht.events⟩

/-! ### The feed of an encoded payload (R105) -/

section Feed

variable {c : Config}

/-- A START outside an escape opens a frame, from InMessage by a resync and its replay. -/
theorem byteStep_START (hv : c.valid = true) {d : Dec} (hd : d.state ≠ .afterEscape) :
    byteStep c d c.START = (⟨.inMessage, []⟩, []) := by
  obtain ⟨st, a⟩ := d
  cases st with
  | waitHeader => simp [byteStep, transition_wh_start, Trans.frames]
  | inMessage => simp [byteStep_resync, transition_im_start hv]
  | afterEscape => exact absurd rfl hd

/-- What the encoder writes for one payload byte, the decoder stores as that byte. -/
theorem feed_encByte {a : Memory} (ha : a.length < c.M) (b : Byte) :
    feed c ⟨.inMessage, a⟩ (encByte c b) = (⟨.inMessage, a ++ [b]⟩, []) := by
  rcases hb : isRes c b with _ | _
  · simp [encByte, hb, encLitBytes, feed_cons, byteStep, transition_im_lit hb ha, Trans.frames]
  · simp [encByte, hb, encEscBytes, feed_cons, byteStep, transition_im_esc, transition_ae_res hb ha, Trans.frames]

theorem feed_stuff {a : Memory} {p : List Byte} (h : a.length + p.length ≤ c.M) :
    feed c ⟨.inMessage, a⟩ (stuff c p) = (⟨.inMessage, a ++ p⟩, []) := by
  induction p generalizing a with
  | nil => simp
  | cons b p ih =>
    rw [List.length_cons] at h
    have hrest : (a ++ [b]).length + p.length ≤ c.M := by
      rw [List.length_append, List.length_singleton]
      omega
    rw [stuff_cons, feed_append, feed_encByte (by omega), ih hrest]
    simp

/-- A START and a stuffed payload leave a frame in progress that holds the payload. -/
theorem feed_START_stuff (hv : c.valid = true) {d : Dec} (hd : d.state ≠ .afterEscape) {p : List Byte}
    (hp : p.length ≤ c.M) : feed c d (c.START :: stuff c p) = (⟨.inMessage, p⟩, []) := by
  rw [feed_cons, byteStep_START hv hd, feed_stuff (by simpa using hp)]
  rfl

/-- The sequence of a payload delivers that payload, from WaitHeader and from InMessage. -/
theorem feed_encodeSeq (hv : c.valid = true) {d : Dec} (hd : d.state ≠ .afterEscape) {p : List Byte}
    (hp : p.length ≤ c.M) : feed c d (encodeSeq c p) = (⟨.waitHeader, []⟩, [p]) := by
  rw [encodeSeq, List.singleton_append, feed_append, feed_START_stuff hv hd hp]
  simp [feed_cons, byteStep, transition_im_end hv, Trans.frames]

/-- Bytes without a START are noise to WaitHeader. -/
theorem feed_waitHeader_of_not_mem {a : Memory} {bs : List Byte} (h : c.START ∉ bs) :
    feed c ⟨.waitHeader, a⟩ bs = (⟨.waitHeader, a⟩, []) := by
  induction bs with
  | nil => rfl
  | cons b bs ih =>
    obtain ⟨hb, hbs⟩ := List.ne_and_not_mem_of_not_mem_cons h
    simp [feed_cons, byteStep, transition_wh_other (Ne.symm hb), Trans.frames, ih hbs]

end Feed

/-! ### The stream of R106 -/

/-- The frame that the stream of R106 delivers. -/
def repeatedStartFrame : List Byte := [0x10, 0x11, 0x12, 0x42, 0x32, 0x7D, 0x7D, 0x46, 0x13, 0x64]

/-- Settles O50: three STARTs, a frame abandoned after one byte, the sequence of the delivered frame, and noise. -/
theorem resyncOnRepeatedStart : Obligations.ResyncOnRepeatedStart := by
  intro c hv hS hE hX
  obtain ⟨-, -, -, hM, -⟩ := valid_iff.mp hv
  have hsplit : [c.START, c.START, c.START, c.START, 0x10, c.START, 0x10, 0x11, c.ESC, c.START, 0x42, 0x32, c.ESC,
      c.ESC, c.ESC, c.ESC, 0x46, c.ESC, c.END, 0x64, c.END, 0x45, 0x33] =
      [c.START, c.START, c.START] ++ (c.START :: stuff c [0x10]) ++ encodeSeq c repeatedStartFrame ++ [0x45, 0x33] := by
    simp [repeatedStartFrame, encodeSeq, encByte, isRes, encEscBytes, encLitBytes, hS, hE, hX]
  have hstarts : feed c Dec.reset [c.START, c.START, c.START] = (⟨.inMessage, []⟩, []) := by
    simp [feed_cons, byteStep_START hv, Dec.reset]
  have habandoned : feed c ⟨.inMessage, []⟩ (c.START :: stuff c [0x10]) = (⟨.inMessage, [0x10]⟩, []) :=
    feed_START_stuff hv (by decide) (Nat.le_trans (by decide) hM)
  have hframe : feed c ⟨.inMessage, [0x10]⟩ (encodeSeq c repeatedStartFrame) =
      (⟨.waitHeader, []⟩, [repeatedStartFrame]) := feed_encodeSeq hv (by decide) hM
  have hnoise : feed c ⟨.waitHeader, []⟩ [0x45, 0x33] = (⟨.waitHeader, []⟩, []) :=
    feed_waitHeader_of_not_mem (by simp [hS])
  rw [hsplit]
  simp only [feed_append, hstarts, habandoned, hframe, hnoise]
  rfl

end Sys2Proof.Machine
end

section
/-! PROOFS. The statements of 60_exceptions.md: the one effect of a resync, and what decides before room does. -/

namespace Sys2Proof.Machine

/-- A state that forms a row's word selects the row's operation. -/
theorem State.FormsRow.selected {s : State} {p m : BitVec 5} {i : Instr} (h : s.FormsRow p m i) :
    s.selected = some i := by
  obtain ⟨w, hw, -, hi⟩ := h
  simp [State.selected, hw, hi, Except.toOption]

/-- Settles O23: the selected operation is the one of the decode word, and every resync drops the frame. -/
theorem resyncEntryHasOneEffect : Obligations.ResyncEntryHasOneEffect := by
  intro s ch d b rest ms i h hi hr
  exact h.exec_resync (Option.some.inj (h.selected.symm.trans hi)) hr

/-- Settles O24: the rows of IM_ESC, IM_END, IM_RESYNC_START and AE_BAD_ESCAPE leave `full` free, so what
holds of each operation at any accumulator length holds at `M`. -/
theorem byteClassDecidesBeforeRoom : Obligations.ByteClassDecidesBeforeRoom := by
  intro s ch a b rest ms ha
  rw [← decide_eq_true ha]
  refine ⟨fun h => ⟨?esc, ?fin, ?start⟩, fun h hb => ?badEscape⟩
  case esc =>
    rintro rfl
    obtain ⟨hrow, he⟩ := imEscEntersAfterEscape s ch a rest ms h
    exact ⟨hrow.selected, _, he⟩
  case fin =>
    rintro rfl
    obtain ⟨hrow, t, he, rfl, -⟩ := imEndDeliversTheFrame s ch a rest ms h
    exact ⟨hrow.selected, _, he, rfl⟩
  case start =>
    rintro rfl
    obtain ⟨hrow, hkind, t, he, -⟩ := imResyncStartReplaysTheStart s ch a rest ms h
    exact ⟨hrow.selected, hkind, t, he⟩
  case badEscape =>
    obtain ⟨hrow, hkind, t, he, -⟩ := aeBadEscapeDropsTheFrame s ch a b rest ms h hb
    exact ⟨hrow.selected, hkind, t, he⟩

end Sys2Proof.Machine
end

section
/-! PROOFS. The statement of 70_reset_and_hazards.md: a configuration that breaks a constraint is refused. -/

namespace Sys2Proof.Machine

/-- A configuration that breaks one of the three constraints of R138 is not valid. -/
theorem valid_eq_false_of_broken {c : Config}
    (h : c.START = c.END ∨ c.START = c.ESC ∨ c.END = c.ESC ∨ c.M < 10 ∨ 2 ^ c.LEN_W ≤ c.M + 1) :
    c.valid = false := by
  refine Bool.eq_false_iff.mpr fun hv => ?_
  obtain ⟨hSE, hSX, hEX, hM, hW, -⟩ := valid_iff.mp hv
  rcases h with h | h | h | h | h
  · exact hSE h
  · exact hSX h
  · exact hEX h
  · exact Nat.not_lt.mpr hM h
  · exact Nat.not_lt.mpr h hW

theorem ifSelected_of_invalid {s : State} (hv : s.cfg.valid = false) (i : Instr)
    (o : Host.Outcome State Fault Refusal) : ifSelected i s o = .refused .invalidConfig := by
  simp [ifSelected, hv]

/-- Every operation of the machine stands behind the guard `ifSelected`. -/
theorem exec_eq_ifSelected (i : Instr) (s : State) : ∃ o, exec i s = ifSelected i s o := by
  cases i <;> exact ⟨_, rfl⟩

theorem exec_of_invalid {s : State} (hv : s.cfg.valid = false) (i : Instr) :
    exec i s = .refused .invalidConfig := by
  obtain ⟨o, ho⟩ := exec_eq_ifSelected i s
  rw [ho, ifSelected_of_invalid hv]

theorem step_of_invalid {s : State} (hv : s.cfg.valid = false) : step s = .refused .invalidConfig := by
  simp [step, hv]

/-- Settles O26: such a configuration is not valid, and both the step and the guard of the operations test that
first. -/
theorem brokenConfigurationIsRefused : Obligations.BrokenConfigurationIsRefused := by
  intro s h
  have hv : s.cfg.valid = false := valid_eq_false_of_broken h
  exact ⟨step_of_invalid hv, exec_of_invalid hv⟩

end Sys2Proof.Machine
end

section
/-! PROOFS. The statements about 30_encoding.md as a whole: the four byte classes, the sample words, and that decode and
encode are inverse. -/

namespace Sys2Proof

/-! ### A decode word is its fields (R56) -/

theorem DecState.exists_code_eq : ∀ w : BitVec 2, w ≠ 0b11 → ∃ st : DecState, st.code = w
  | 0b00#2, _ => ⟨.waitHeader, rfl⟩
  | 0b01#2, _ => ⟨.inMessage, rfl⟩
  | 0b10#2, _ => ⟨.afterEscape, rfl⟩
  | 0b11#2, h => absurd rfl h

theorem dwOf_dwFull_dwCls (st : DecState) :
    ∀ w : BitVec 5, dwState w = st.code → dwOf (dwFull w) st (dwCls w) = w := by
  cases st <;> decide

/-- A word with another state code than 0b11 is one that a state can form. -/
theorem exists_dwOf_eq {w : BitVec 5} (h : dwState w ≠ 0b11) : ∃ f st k, dwOf f st k = w := by
  obtain ⟨st, hst⟩ := DecState.exists_code_eq _ h
  exact ⟨dwFull w, st, dwCls w, dwOf_dwFull_dwCls st w hst.symm⟩

/-! ### The encoder on what the decoder gives (R57, R60, R61) -/

theorem encode_dwInstr (f : Bool) (st : DecState) (k : ByteClass) :
    encode (dwInstr f st k) = .dw (dwOf f st k) := by
  cases f <;> cases st <;> cases k <;> rfl

theorem wellFormed_dwInstr (f : Bool) (st : DecState) (k : ByteClass) : (dwInstr f st k).wellFormed = true := by
  cases f <;> cases st <;> cases k <;> rfl

theorem encode_of_decode_cmd {w : BitVec 1} {i : Instr} (h : decode (.cmd w) = .ok i) :
    encode i = .cmd w ∧ i.wellFormed = true := by
  obtain rfl | rfl : w = 0#1 ∨ w = 1#1 := BitVec.eq_zero_or_eq_one w
  · cases h
  · obtain rfl := Except.ok.inj (decode_cmd_one.symm.trans h)
    exact ⟨rfl, rfl⟩

theorem encode_of_decode_ew {w : BitVec 2} {i : Instr} (h : decode (.ew w) = .ok i) :
    encode i = .ew w ∧ i.wellFormed = true := by
  rw [← ByteClass.code_ofCode w, decode_ew_code] at h
  rw [← ByteClass.code_ofCode w, ← Except.ok.inj h]
  cases ByteClass.ofCode w <;> exact ⟨rfl, rfl⟩

theorem encode_of_decode_dw {w : BitVec 5} {i : Instr} (h : decode (.dw w) = .ok i) :
    encode i = .dw w ∧ i.wellFormed = true := by
  have hst : dwState w ≠ 0b11 := fun hst => by simp [decode_dw_of_dwState_eq_three hst] at h
  obtain ⟨f, st, k, rfl⟩ := exists_dwOf_eq hst
  obtain rfl := Except.ok.inj ((decode_dwOf f st k).symm.trans h)
  exact ⟨encode_dwInstr f st k, wellFormed_dwInstr f st k⟩

/-! ### The obligations -/

/-- Settles O3: forwards by the family `Laws.RoundTrip`, one operation at a time; backwards by format, where an accepted
decode word is `dwOf` of its fields. -/
theorem decodeAndEncodeAgree : Obligations.DecodeAndEncodeAgree := by
  constructor
  · intro i
    cases i with
    | encode => exact Laws.RoundTrip.encode
    | encLit => exact Laws.RoundTrip.encLit
    | encEsc k => exact Laws.RoundTrip.encEsc k
    | whStart f => exact Laws.RoundTrip.whStart f
    | whDiscard f k => exact Laws.RoundTrip.whDiscard f k
    | imEsc f => exact Laws.RoundTrip.imEsc f
    | imEnd f => exact Laws.RoundTrip.imEnd f
    | imResyncStart f => exact Laws.RoundTrip.imResyncStart f
    | imAppend => exact Laws.RoundTrip.imAppend
    | imOverflow => exact Laws.RoundTrip.imOverflow
    | aeBadEscape f => exact Laws.RoundTrip.aeBadEscape f
    | aeAppend k => exact Laws.RoundTrip.aeAppend k
    | aeOverflow k => exact Laws.RoundTrip.aeOverflow k
  · intro w i h
    cases w with
    | cmd w => exact encode_of_decode_cmd h
    | ew w => exact encode_of_decode_ew h
    | dw w => exact encode_of_decode_dw h

/-- Settles O1: each word is closed, so the maps compute its operation. -/
theorem sampleWordsDecode : Obligations.SampleWordsDecode :=
  ⟨rfl, rfl, rfl, rfl, rfl, rfl, rfl, rfl, rfl, rfl, rfl, rfl, rfl, rfl⟩

end Sys2Proof

namespace Sys2Proof.Machine

theorem code_cls_eq_iff {c : Config} {b : Byte} (k : ByteClass) : (cls c b).code = k.code ↔ cls c b = k :=
  ⟨ByteClass.code_injective, congrArg _⟩

/-- Settles O4: a code stands for one class, and a class is given by equality with the sentinels. -/
theorem byteClassesPartitionTheBytes : Obligations.ByteClassesPartitionTheBytes := by
  intro c b hv
  exact ⟨(code_cls_eq_iff .START).trans cls_eq_START, (code_cls_eq_iff .END).trans (cls_eq_END hv),
    (code_cls_eq_iff .ESC).trans (cls_eq_ESC hv), (code_cls_eq_iff .OTHER).trans (cls_eq_OTHER.trans not_isRes_iff)⟩

end Sys2Proof.Machine
end

section
/-! PROOFS. The steps that the statements about the machine as a whole rest on: the selected operation, the requested
command, the payload byte, and the host's moves. -/

namespace Sys2Proof.Machine

/-! ### Steps that leave no byte to replay -/

theorem selected_of_fetch {s : State} {w : OpWord} {i : Instr} (hw : s.fetch = some w) (hi : decode w = .ok i) :
    s.selected = some i := by
  simp [State.selected, hw, hi, Except.toOption]

/-- An operation that leaves no byte unconsumed is a whole step, fused or not. -/
theorem step_of_exec {s t : State} {i : Instr} (hv : s.cfg.valid = true) (hi : s.selected = some i)
    (he : exec i s = .next t) (ho : ∀ ch f, t.out ≠ .dec ch false f) : step s = .next t := by
  have hr : runSelected s = .next t := (runSelected_of_selected hi).trans he
  have hre : replayInStep (.next t) = .next t := by
    rw [replayInStep]
    split
    · next hout => exact absurd hout (ho _ _)
    · rfl
  simp [step, hv, hr, hre]

theorem step_of_request {s : State} {r : Request} (hv : s.cfg.valid = true) (hr : s.request = some r) :
    step s = .next (if s.cfg.M < r.payload.length then s.raiseFrameTooLarge r.enc r.moves
      else s.respondOk r.enc (encodeSeq s.cfg r.payload) r.moves) := by
  refine step_of_exec hv (selected_of_request hr) (exec_encode_eq s hv hr) fun ch f => ?_
  split_ifs <;> simp

theorem step_of_payloadByte {s : State} {b : Byte} {w : EncWork} (hv : s.cfg.valid = true)
    (hb : s.payloadByte = some (b, w)) : step s = .next (s.pushWork w (encByte s.cfg b)) := by
  obtain ⟨i, hi, he⟩ := exec_of_payloadByte hv hb
  exact step_of_exec hv hi he (by simp)

/-- The end of a command in progress, once no payload byte is left. -/
theorem step_of_command_end {s : State} {w : EncWork} (hv : s.cfg.valid = true) (hw : s.work = some w)
    (hr : w.rest = []) : step s = .next (s.finishWork w) := by
  obtain ⟨e, rest, q⟩ := w
  obtain rfl : rest = [] := hr
  have hn : s.fetch = none := by simp [State.fetch, State.payloadByte, State.request, State.presented, hw]
  exact step_of_hostMove hv hn (by simp [hostMove, hw])

/-! ### Steps of the host's moves that drive no operation -/

section HostMoves

variable {s : State} {ch : Nat} {k : Chan} {ms : List Move}

/-- Outside a command, a state whose next move is no clock and no request forms no word. -/
theorem fetch_eq_none_of_head {s : State} (hw : s.work = none) (hc : ∀ i, s.moves.head? ≠ some (.clock i))
    (he : ∀ e p, s.moves.head? ≠ some (.encode e p)) : s.fetch = none := by
  rcases fetch_cases s with ⟨b, w, hb⟩ | ⟨r, hr⟩ | ⟨p, hp⟩ | ⟨hn, -⟩
  · simp [payloadByte_none_of_work hw] at hb
  · obtain ⟨-, hm, -⟩ := request_iff.mp hr
    exact absurd (by rw [hm]; rfl) (he r.enc r.payload)
  · obtain ⟨-, hm, -⟩ := presented_iff.mp hp
    exact absurd (by rw [hm]; rfl) (hc p.ch)
  · exact hn

theorem step_of_no_move (hv : s.cfg.valid = true) (hw : s.work = none) (hm : s.moves = []) :
    step s = .next (s.idleStep []) :=
  step_of_hostMove hv (fetch_eq_none_of_head hw (by simp [hm]) (by simp [hm])) (by simp [hostMove, hw, hm])

theorem step_of_idle (hv : s.cfg.valid = true) (hw : s.work = none) (hm : s.moves = .idle :: ms) :
    step s = .next (s.idleStep ms) :=
  step_of_hostMove hv (fetch_eq_none_of_head hw (by simp [hm]) (by simp [hm])) (by simp [hostMove, hw, hm])

theorem step_of_reset {keep : Bool} (hv : s.cfg.valid = true) (hw : s.work = none)
    (hm : s.moves = .reset ch keep :: ms) (hk : s.chans[ch]? = some k) :
    step s = .next (s.resetChan ch k keep ms) :=
  step_of_hostMove hv (fetch_eq_none_of_head hw (by simp [hm]) (by simp [hm])) (by simp [hostMove, hw, hm, hk])

theorem step_of_feed {q : List Byte} (hv : s.cfg.valid = true) (hw : s.work = none)
    (hm : s.moves = .feed ch q :: ms) (hk : s.chans[ch]? = some k) :
    step s = .next (s.startFeed ch k q ms) :=
  step_of_hostMove hv (fetch_eq_none_of_head hw (by simp [hm]) (by simp [hm])) (by simp [hostMove, hw, hm, hk])

end HostMoves

/-! ### The obligations -/

/-- Settles O5: the word selects the operation, and the fused form replays what it leaves. -/
theorem stepRunsTheDecodedOperation : Obligations.StepRunsTheDecodedOperation := by
  intro s w i hv hw hi
  have hr : runSelected s = exec i s := runSelected_of_selected (selected_of_fetch hw hi)
  constructor
  · intro hf
    simp [step, hv, hf, hr]
  · intro hf t he
    have hstep : step s = replayInStep (.next t) := by simp [step, hv, hf, hr, he]
    rw [hstep]
    rfl

/-- Settles O37: no move left, an idle move, and a clock on a channel with no input are idle steps. -/
theorem anIdleStepHoldsTheState : Obligations.AnIdleStepHoldsTheState := by
  intro s ch d ms hv hw
  refine ⟨fun hm => ?_, step_of_idle hv hw, step_of_clock_no_input hv hw⟩
  rw [step_of_no_move hv hw hm, State.idleStep, ← hm]

/-- Settles O36: the reset move is a host move, and its ports are read from what it drove. -/
theorem resetMoveDropsTheFrameAndTakesNoTransition : Obligations.ResetMoveDropsTheFrameAndTakesNoTransition := by
  intro s ch keep k ms hv hw hm hk
  exact ⟨_, step_of_reset hv hw hm hk, rfl, by simp [StepOut.inReady], rfl⟩

/-- Settles O58: the feed move is a host move. -/
theorem feedAddsItsBytesAfterThoseNotYetConsumed : Obligations.FeedAddsItsBytesAfterThoseNotYetConsumed := by
  intro s ch bytes k ms hv hw hm hk
  exact step_of_feed hv hw hm hk

end Sys2Proof.Machine
end

section
/-! PROOFS. The invariants of 10_state.md R18 and R20: they hold after bring-up, every step keeps them, and within
them no step stops. -/

namespace Sys2Proof.Machine

/-! ### What keeps `State.Wf` -/

theorem Dec.wf_empty (c : Config) (st : DecState) : Dec.wf c ⟨st, []⟩ := ⟨Nat.zero_le _, fun _ => rfl⟩

theorem Dec.wf_reset (c : Config) : Dec.reset.wf c := Dec.wf_empty c .waitHeader

theorem Dec.wf_stepTrans {c : Config} {d : Dec} (h : d.wf c) (b : Byte) : (stepTrans c d b).dec.wf c := by
  unfold stepTrans
  split_ifs
  · exact Dec.wf_transition (Dec.wf_empty c _) b
  · exact Dec.wf_transition h b

theorem State.Wf.of_chans_eq {s t : State} (hs : s.Wf) (hcfg : t.cfg = s.cfg) (hchans : t.chans = s.chans)
    (hwork : ∀ w ∈ t.work, w.wf s.cfg) : t.Wf where
  cfg := hcfg ▸ hs.cfg
  chans := by rw [hchans, hcfg, hs.chans]
  decs := by rw [hchans, hcfg]; exact hs.decs
  work := by rw [hcfg]; exact hwork

theorem State.Wf.of_chans_set {s t : State} (hs : s.Wf) (hcfg : t.cfg = s.cfg) {ch : Nat} {k : Chan}
    (hchans : t.chans = s.chans.set ch k) (hk : k.dec.wf s.cfg) (hwork : t.work = s.work) : t.Wf where
  cfg := hcfg ▸ hs.cfg
  chans := by rw [hchans, List.length_set, hcfg, hs.chans]
  decs := by
    intro k' hk'
    rw [hchans] at hk'
    rw [hcfg]
    rcases List.mem_or_eq_of_mem_set hk' with hmem | rfl
    · exact hs.decs k' hmem
    · exact hk
  work := by rw [hcfg, hwork]; exact hs.work

theorem encByte_length_le (c : Config) (b : Byte) : (encByte c b).length ≤ 2 := by
  rcases hb : isRes c b with _ | _ <;> simp [encByte, hb, encEscBytes, encLitBytes]

/-- One more payload byte leaves the working sequence within its bound (20_memory.md R40). -/
theorem EncWork.wf_push {c : Config} {w : EncWork} {b : Byte} (h : EncWork.wf c { w with rest := b :: w.rest }) :
    EncWork.wf c { w with buf := w.buf ++ encByte c b } := by
  have hb := encByte_length_le c b
  simp only [EncWork.wf, List.length_cons, List.length_append] at h ⊢
  omega

theorem hostMove_keeps_wf {s t : State} (hs : s.Wf) (h : hostMove s = .next t) : t.Wf := by
  rcases hostMove_next h with ⟨w, -, rfl⟩ | ⟨-, ⟨-, rfl⟩ | ⟨ms, -, rfl⟩ | ⟨ch, k, ms, -, -, rfl⟩ |
    ⟨ch, keep, k, ms, -, -, rfl⟩ | ⟨ch, q, k, ms, -, hk, rfl⟩⟩
  · exact hs.of_chans_eq rfl rfl (by simp)
  · exact hs.of_chans_eq rfl rfl hs.work
  · exact hs.of_chans_eq rfl rfl hs.work
  · exact hs.of_chans_eq rfl rfl hs.work
  · exact hs.of_chans_set rfl rfl (Dec.wf_reset _) rfl
  · exact hs.of_chans_set rfl rfl (hs.decs k (List.mem_of_getElem? hk)) rfl

theorem step_keeps_wf {s t : State} (hs : s.Wf) (h : step s = .next t) : t.Wf := by
  obtain ⟨-, ⟨p, hp, rfl⟩ | ⟨r, -, rfl⟩ | ⟨b, w, hb, rfl⟩ | ⟨-, hh⟩⟩ := step_cases h
  · obtain ⟨-, -, hk⟩ := presented_iff.mp hp
    exact hs.of_chans_set rfl rfl (Dec.wf_stepTrans (hs.decs _ (List.mem_of_getElem? hk)) _) rfl
  · split_ifs
    · exact hs.of_chans_eq rfl rfl hs.work
    · exact hs.of_chans_eq rfl rfl (by simp)
  · refine hs.of_chans_eq rfl rfl fun w' hw' => ?_
    obtain rfl := Option.some.inj (Option.mem_def.mp hw')
    exact EncWork.wf_push (hs.work _ (payloadByte_iff.mp hb))
  · exact hostMove_keeps_wf hs hh

/-! ### Within the invariants no step stops -/

theorem State.Wf.exists_chan {s : State} (hs : s.Wf) {ch : Nat} (h : ch < s.cfg.NCHAN) :
    ∃ k, s.chans[ch]? = some k :=
  ⟨_, List.getElem?_eq_getElem (hs.chans ▸ h)⟩

/-- A state that forms no word lets the host move, whatever part of the hardware the move names. -/
theorem hostMove_completes {s : State} (hs : s.Wf) (hn : s.fetch = none) (hm : ∀ m ∈ s.moves.head?, m.wf s.cfg) :
    Completes (hostMove s) := by
  rcases hw : s.work with _ | w
  · rcases hms : s.moves with _ | ⟨m, ms⟩
    · simp [Completes, hostMove, hw, hms]
    · have hmwf : m.wf s.cfg := hm m (by simp [hms])
      cases m with
      | clock ch =>
        obtain ⟨k, hk⟩ := hs.exists_chan hmwf
        simp [Completes, hostMove, hw, hms, hk]
      | reset ch keep =>
        obtain ⟨k, hk⟩ := hs.exists_chan hmwf
        simp [Completes, hostMove, hw, hms, hk]
      | feed ch q =>
        obtain ⟨k, hk⟩ := hs.exists_chan hmwf
        simp [Completes, hostMove, hw, hms, hk]
      | encode e p =>
        have hr : s.request = some ⟨e, p, ms⟩ := request_iff.mpr ⟨hw, hms, hmwf⟩
        simp [fetch_of_request hr] at hn
      | idle => simp [Completes, hostMove, hw, hms]
  · simp [Completes, hostMove, hw]

theorem step_completes {s : State} (hs : s.Wf) (hm : ∀ m ∈ s.moves.head?, m.wf s.cfg) : Completes (step s) := by
  rcases fetch_cases s with ⟨b, w, hb⟩ | ⟨r, hr⟩ | ⟨p, hp⟩ | ⟨hn, -⟩
  · exact ⟨_, step_of_payloadByte hs.cfg hb⟩
  · exact ⟨_, step_of_request hs.cfg hr⟩
  · obtain ⟨-, -, hk⟩ := presented_iff.mp hp
    obtain ⟨hacc, -⟩ := hs.decs _ (List.mem_of_getElem? hk)
    exact ⟨_, step_of_presented hs.cfg hp hacc⟩
  · obtain ⟨t, ht⟩ := hostMove_completes hs hn hm
    exact ⟨t, step_of_hostMove hs.cfg hn ht⟩

/-! ### What a step leaves of the configuration, the command and the moves -/

theorem step_keeps_cfg {s t : State} (h : step s = .next t) : t.cfg = s.cfg := by
  obtain ⟨-, ⟨p, -, rfl⟩ | ⟨r, -, rfl⟩ | ⟨b, w, -, rfl⟩ | ⟨-, hh⟩⟩ := step_cases h
  · rfl
  · split_ifs <;> rfl
  · rfl
  · rcases hostMove_next hh with ⟨w, -, rfl⟩ | ⟨-, ⟨-, rfl⟩ | ⟨ms, -, rfl⟩ | ⟨_, _, _, -, -, rfl⟩ |
      ⟨_, _, _, _, -, -, rfl⟩ | ⟨_, _, _, _, -, -, rfl⟩⟩ <;> rfl

/-- Outside a command a step takes its move and begins no command. -/
theorem step_work_moves_outside_command {s t : State} (h : step s = .next t) (hw : s.work = none) :
    t.work = none ∧ t.moves = s.moves.tail := by
  rcases step_cases_outside_command h hw with ⟨p, hp, rfl⟩ | ⟨r, hr, rfl⟩ | ⟨-, rfl⟩ |
    ⟨i, keep, k, ms, hm, -, rfl⟩ | ⟨i, q, k, ms, hm, -, rfl⟩
  · obtain ⟨-, hm, -⟩ := presented_iff.mp hp
    exact ⟨hw, by simp [hm]⟩
  · obtain ⟨-, hm, -⟩ := request_iff.mp hr
    split_ifs <;> simp [hw, hm]
  · exact ⟨hw, rfl⟩
  · exact ⟨hw, by simp [hm]⟩
  · exact ⟨hw, by simp [hm]⟩

/-! ### The obligations -/

/-- Settles O39: a step sets one channel to a state within the invariants or none, and builds the working sequence
within its bound or ends it. -/
theorem stepKeepsTheInvariants : Obligations.StepKeepsTheInvariants :=
  fun _ _ => step_keeps_wf

/-- Settles O38: every channel is at the reset values, and no command is in progress. -/
theorem resetIsWithinTheInvariants : Obligations.ResetIsWithinTheInvariants := by
  intro c hv
  refine ⟨hv, List.length_replicate, fun k hk => ?_, nofun⟩
  rw [List.eq_of_mem_replicate hk]
  exact Dec.wf_reset c

/-- Settles O40: an operation completes within the invariants, and a host move does where its channel exists. -/
theorem noStepStopsWithinTheInvariants : Obligations.NoStepStopsWithinTheInvariants :=
  fun _ => step_completes

/-- Settles O41: no step writes the configuration, and only a step inside a command has a working sequence. -/
theorem noCommandIsLeftInProgress : Obligations.NoCommandIsLeftInProgress :=
  ⟨fun _ => rfl, fun _ _ h => ⟨step_keeps_cfg h, fun hw => (step_work_moves_outside_command h hw).1⟩⟩

end Sys2Proof.Machine
end

section
/-! PROOFS. The statements about every operation of `exec`: which one completes, what it writes of the accumulator, what
it leaves unchanged, and the replay that follows an unconsumed byte. -/

namespace Sys2Proof.Machine

/-! ### What an operation on a presented byte has done -/

/-- An operation that completes on a presented byte commits what its own effect returns. -/
theorem State.Presents.exec_next_effect {s t : State} {ch : Nat} {d : Dec} {b : Byte} {rest : List Byte}
    {ms : List Move} {i : Instr} (h : s.Presents ch d b rest ms) (he : Machine.exec i s = .next t) :
    ∃ f tr, effectOf i = some f ∧ f s.cfg d b = .ok tr ∧
      t = s.commit { ch := ch, dec := d, byte := b, rest := rest, moves := ms } tr := by
  obtain ⟨hi, -⟩ := h.exec_next he
  obtain ⟨f, hf⟩ := effectOf_dwInstr (full s.cfg d) d.state (cls s.cfg b)
  rw [hi] at hf
  rw [exec_eq_of_effect hf] at he
  obtain ⟨-, -, he⟩ := ifSelected_next he
  obtain ⟨p, tr, hp, htr, rfl⟩ := onPresented_next he
  obtain rfl := Option.some.inj ((presents_iff.mp h).2.symm.trans hp)
  exact ⟨f, tr, hf, htr, rfl⟩

/-- The committed transition's decoder is the channel's. -/
theorem State.Presents.dec?_commit {s : State} {ch : Nat} {d : Dec} {b : Byte} {rest : List Byte} {ms : List Move}
    (h : s.Presents ch d b rest ms) (tr : Trans) :
    (s.commit { ch := ch, dec := d, byte := b, rest := rest, moves := ms } tr).dec? ch = some tr.dec := by
  obtain ⟨-, -, -, hk⟩ := h
  obtain ⟨hl, -⟩ := List.getElem?_eq_some_iff.mp hk
  simp [State.dec?, hl]

/-- The effect of IM_APPEND and of AE_APPEND is one `AccAppend`; the two differ in the next state alone. -/
theorem accAppend_of_append_effect {c : Config} {d : Dec} {b : Byte} {i : Instr}
    {f : Config → Dec → Byte → Except Fault Trans} {tr : Trans} (hi : i = .imAppend ∨ ∃ k, i = .aeAppend k)
    (hf : effectOf i = some f) (ht : f c d b = .ok tr) :
    ∃ d', accAppend c d b = .ok d' ∧ tr.dec.acc = d'.acc := by
  rcases hi with rfl | ⟨k, rfl⟩ <;> obtain rfl := Option.some.inj hf
  · simp only [imAppend] at ht
    split at ht
    · cases ht
    · next d' hd' => exact ⟨d', hd', by rw [← Except.ok.inj ht]⟩
  · simp only [aeAppend] at ht
    split at ht
    · cases ht
    · next d' hd' => exact ⟨d', hd', by rw [← Except.ok.inj ht]⟩

/-- IM_ESC and WH_DISCARD do not touch the accumulator. -/
theorem acc_of_keeping_effect {c : Config} {d : Dec} {b : Byte} {i : Instr}
    {f : Config → Dec → Byte → Except Fault Trans} {tr : Trans}
    (hi : (∃ g, i = .imEsc g) ∨ ∃ g k, i = .whDiscard g k) (hf : effectOf i = some f) (ht : f c d b = .ok tr) :
    tr.dec.acc = d.acc := by
  rcases hi with ⟨g, rfl⟩ | ⟨g, k, rfl⟩ <;> obtain rfl := Option.some.inj hf <;> rw [← Except.ok.inj ht]

/-- WH_START, IM_END and the four resyncs clear the accumulator. -/
theorem acc_of_clearing_effect {c : Config} {d : Dec} {b : Byte} {i : Instr}
    {f : Config → Dec → Byte → Except Fault Trans} {tr : Trans}
    (hi : (∃ g, i = .whStart g) ∨ (∃ g, i = .imEnd g) ∨ resyncKind i ≠ none) (hf : effectOf i = some f)
    (ht : f c d b = .ok tr) : tr.dec.acc = [] := by
  rcases hi with ⟨g, rfl⟩ | ⟨g, rfl⟩ | hr
  · obtain rfl := Option.some.inj hf
    rw [← Except.ok.inj ht]
    rfl
  · obtain rfl := Option.some.inj hf
    rw [imEnd, accSeq_eq] at ht
    rw [← Except.ok.inj ht]
    rfl
  · obtain rfl := Option.some.inj ((effectOf_resync hr).symm.trans hf)
    rw [← Except.ok.inj ht]
    rfl

/-- A read looks at the accumulator alone. -/
theorem memRead_congr {d d' : Dec} (h : d'.acc = d.acc) (j : Nat) : memRead d' j = memRead d j := by
  simp only [memRead, h]

/-- No operation of the encoder is one that a presented byte selects. -/
theorem not_encoder_of_effectOf {i : Instr} {f : Config → Dec → Byte → Except Fault Trans} (h : effectOf i = some f) :
    ¬ (i = .encode ∨ i = .encLit ∨ ∃ k, i = .encEsc k) := by
  rintro (rfl | rfl | ⟨k, rfl⟩) <;> cases h

theorem frameEvents_length_le (ch : Nat) (f : Option (List Byte)) : (frameEvents ch f).length ≤ 1 := by
  cases f <;> simp [frameEvents]

/-! ### The obligations -/

/-- Settles O27: the append tests for room, and `memRead` reads back what it wrote. -/
theorem appendSucceedsExactlyWithRoom : Obligations.AppendSucceedsExactlyWithRoom := by
  intro c d b
  refine ⟨⟨?_, fun h => ⟨_, accAppend_ok b h⟩⟩, ?_, fun h => accAppend_full b h.ge⟩
  · rintro ⟨d', h⟩
    exact (accAppend_next h).1
  · intro d' h
    obtain ⟨-, rfl⟩ := accAppend_next h
    exact ⟨rfl, by simp [Dec.len], memRead_append_same h, fun j hj => memRead_append_other h hj⟩

/-- Settles O29: each operation's effect is an append, keeps the accumulator, or clears it. -/
theorem accumulatorBytesAfterEachOperation : Obligations.AccumulatorBytesAfterEachOperation := by
  intro s t ch d d' b rest ms i h he hd'
  obtain ⟨f, tr, hf, htr, rfl⟩ := h.exec_next_effect he
  obtain rfl : tr.dec = d' := Option.some.inj ((h.dec?_commit tr).symm.trans hd')
  refine ⟨fun hi => ?_, fun hi => ?_, fun hi => ?_⟩
  · obtain ⟨d', happ, hacc⟩ := accAppend_of_append_effect hi hf htr
    refine ⟨(memRead_congr hacc _).trans (memRead_append_same happ), ?_, fun j hj => ?_⟩
    · obtain ⟨-, rfl⟩ := accAppend_next happ
      simp [Dec.len, hacc]
    · exact (memRead_congr hacc j).trans (memRead_append_other happ hj)
  · exact memRead_congr (acc_of_keeping_effect hi hf htr)
  · intro j
    exact memRead_beyond (by simp [Dec.len, acc_of_clearing_effect hi hf htr])

/-- Settles O6: the operation that the word selects completes, and one that completes is the one selected. -/
theorem everyPresentedByteSelectsOneOperationThatCompletes :
    Obligations.EveryPresentedByteSelectsOneOperationThatCompletes := by
  intro s ch d b rest ms h hd
  obtain ⟨hacc, -⟩ := hd
  obtain ⟨hv, hp⟩ := presents_iff.mp h
  obtain ⟨i, hi, he⟩ := exec_of_presented hv hp hacc
  obtain rfl := Option.some.inj (h.selected.symm.trans hi)
  refine ⟨⟨_, ⟨_, he⟩, ?_⟩, ⟨_, _, h.fetch, decode_dwOf _ _ _, _, he⟩, _, h.step hacc⟩
  rintro j ⟨t, ht⟩
  exact (h.exec_next ht).1.symm

/-- Settles O25: an unconsumed byte is presented to an empty WaitHeader, whose transition consumes it with no frame. -/
theorem aByteIsReplayedAtMostOnce : Obligations.AByteIsReplayedAtMostOnce := by
  intro s t i ch f he hout
  obtain ⟨hv, -, ⟨p, hp, rfl⟩ | ⟨r, -, rfl⟩ | ⟨b, w, -, rfl⟩⟩ := exec_cases he
  · obtain ⟨hch, hcons, rfl⟩ : p.ch = ch ∧ (transition s.cfg p.dec p.byte).consumed = false ∧
        (transition s.cfg p.dec p.byte).frame = f := by simpa using hout
    obtain ⟨ch', d, b, rest, ms⟩ := p
    obtain rfl : ch' = ch := hch
    have hpres : s.Presents ch' d b rest ms := presents_iff.mpr ⟨hv, hp⟩
    have hdec := hpres.dec?_commit (transition s.cfg d b)
    rw [transition_unconsumed hcons] at hdec ⊢
    refine ⟨rfl, by simp [frameEvents], hdec, fun j u hm hu => ?_⟩
    obtain ⟨ms', hms⟩ := List.head?_eq_some_iff.mp hm
    obtain ⟨hw, -, hk⟩ := presented_iff.mp hp
    obtain ⟨hl, -⟩ := List.getElem?_eq_some_iff.mp hk
    have hagain : State.Presents (s.commit ⟨ch', d, b, rest, ms⟩ ⟨⟨.waitHeader, []⟩, false, none⟩) ch'
        ⟨.waitHeader, []⟩ b rest ms' := ⟨hv, hw, hms, List.getElem?_set_self hl⟩
    obtain ⟨-, rfl⟩ := hagain.exec_next hu
    simp [transition_replay, frameEvents]
  · split_ifs at hout <;> cases hout
  · cases hout

/-- Settles O28: a transition writes its own channel, a response writes none, and a payload byte writes the working
sequence alone. -/
theorem operationsLeaveTheRestUnchanged : Obligations.OperationsLeaveTheRestUnchanged := by
  intro i s t he
  obtain ⟨hv, hi, ⟨p, hp, rfl⟩ | ⟨r, hr, rfl⟩ | ⟨b, w, hb, rfl⟩⟩ := exec_cases he
  · obtain ⟨hw, hm, -⟩ := presented_iff.mp hp
    refine ⟨rfl, by simp, fun ch hch => ?_, ⟨_, rfl, frameEvents_length_le _ _⟩, fun _ => ⟨hw, by simp [hm]⟩,
      fun w hw' => ?_, fun henc => ?_⟩
    · have hne : p.ch ≠ ch := by simpa [hm] using hch
      simp [hne]
    · simp [hw] at hw'
    · obtain ⟨f, hf⟩ := effectOf_dwInstr (full s.cfg p.dec) p.dec.state (cls s.cfg p.byte)
      rw [Option.some.inj ((selected_of_presented hp).symm.trans hi)] at hf
      exact absurd henc (not_encoder_of_effectOf hf)
  · obtain ⟨hw, hm, -⟩ := request_iff.mp hr
    split_ifs
    · exact ⟨rfl, rfl, fun _ _ => rfl, ⟨[], by simp, by simp⟩, fun _ => ⟨hw, by simp [hm]⟩,
        fun w hw' => by simp [hw] at hw', fun _ => rfl⟩
    · exact ⟨rfl, rfl, fun _ _ => rfl, ⟨_, rfl, by simp⟩, fun _ => ⟨rfl, by simp [hm]⟩,
        fun w hw' => by simp [hw] at hw', fun _ => rfl⟩
  · have hwork := payloadByte_iff.mp hb
    refine ⟨rfl, rfl, fun _ _ => rfl, ⟨[], by simp, by simp⟩, fun hw => ?_, fun w' hw' => ?_, fun _ => rfl⟩
    · simp [hw] at hwork
    · obtain rfl := Option.some.inj (hwork.symm.trans hw')
      exact ⟨rfl, rfl, rfl, _, rfl⟩

end Sys2Proof.Machine
end

section
/-! PROOFS. The statements of 40_encoder.md about the per-byte operations and about the encoded sequence as a frame of
the grammar of 30_encoding.md R51. -/

namespace Sys2Proof.Machine

/-! ### The per-byte operations -/

theorem payloadByte_of_work {s : State} {e : Nat} {b : Byte} {r q : List Byte} (hw : s.work = some ⟨e, b :: r, q⟩) :
    s.payloadByte = some (b, ⟨e, r, q⟩) :=
  payloadByte_iff.mpr hw

/-- The operation that a payload byte selects appends what ENCODE's loop writes for the byte. -/
theorem exec_payload_operation {s : State} {e : Nat} {b : Byte} {r q : List Byte} (hv : s.cfg.valid = true)
    (hw : s.work = some ⟨e, b :: r, q⟩) {i : Instr}
    (hi : (if isRes s.cfg b then .encEsc (cls s.cfg b) else .encLit) = i) :
    exec i s = .next { s with work := some ⟨e, r, q ++ encByte s.cfg b⟩, out := .idle } := by
  have hb := payloadByte_of_work hw
  obtain ⟨j, hj, he⟩ := exec_of_payloadByte hv hb
  obtain rfl : i = j := Option.some.inj ((hi ▸ selected_of_payloadByte hb).symm.trans hj)
  exact he

/-- Settles O19: a byte of class OTHER selects ENC_LIT. -/
theorem encLitPassesTheByteThrough : Obligations.EncLitPassesTheByteThrough := by
  intro s e b r q hv hw hb
  refine ⟨?_, ?_⟩
  · rw [fetch_of_payloadByte (payloadByte_of_work hw), cls_eq_OTHER.mpr hb]
    rfl
  · rw [exec_payload_operation hv hw (by simp [hb]), encByte, if_neg (by simp [hb]), encLitBytes]

/-- Settles O20: a byte of another class selects ENC_ESC. -/
theorem encEscEscapesTheByte : Obligations.EncEscEscapesTheByte := by
  intro s e b r q hv hw hb
  refine ⟨⟨_, fetch_of_payloadByte (payloadByte_of_work hw), ByteClass.code_ne_zero (cls_ne_OTHER hb)⟩, ?_⟩
  rw [exec_payload_operation hv hw (if_pos hb), encByte, if_pos hb, encEscBytes]

/-! ### The per-byte operations make up a command (R67) -/

/-- From inside a command, one step for each payload byte left and one for the end give the response that emits the
whole sequence. -/
theorem run_command {s : State} {e : Nat} {p q : List Byte} (hv : s.cfg.valid = true) (hw : s.work = some ⟨e, p, q⟩) :
    run (p.length + 1) s = .next (s.respondOk e (q ++ stuff s.cfg p ++ [s.cfg.END]) s.moves) := by
  induction p generalizing s q with
  | nil =>
    rw [run_succ (step_of_command_end hv hw rfl)]
    simp [State.finishWork]
  | cons b p ih =>
    rw [List.length_cons, run_succ (step_of_payloadByte hv (payloadByte_of_work hw)),
      ih (s := s.pushWork ⟨e, p, q⟩ (encByte s.cfg b)) hv rfl]
    simp [State.pushWork, State.respondOk]

/-- Settles O21: the run of the command gives ENCODE's sequence in ENCODE's response. -/
theorem perByteOperationsMakeUpEncode : Obligations.PerByteOperationsMakeUpEncode := by
  intro s e p ms hv hw hm he hle
  have hr : s.request = some ⟨e, p, ms⟩ := request_iff.mpr ⟨hw, hm, he⟩
  rw [exec_encode_of_le hv hr hle]
  exact run_command (s := { s with work := some ⟨e, p, [s.cfg.START]⟩, moves := ms }) hv rfl

/-! ### The body of the grammar (30_encoding.md R51, R52) -/

section Body

variable {c : Config} {p q w : List Byte}

theorem body_stuff (c : Config) (p : List Byte) : Body c p (stuff c p) := by
  induction p with
  | nil => exact .nil
  | cons b p ih =>
    rcases hb : isRes c b with _ | _
    · simpa [encByte, hb, encLitBytes] using Body.lit b hb ih
    · simpa [encByte, hb, encEscBytes] using Body.esc b hb ih

/-- The grammar gives a payload no body but the encoder's. -/
theorem eq_stuff_of_body (h : Body c p w) : w = stuff c p := by
  induction h with
  | nil => rfl
  | lit b hb _ ih => simp [encByte, hb, encLitBytes, ih]
  | esc r hr _ ih => simp [encByte, hr, encEscBytes, ih]

theorem encByte_ne_nil (c : Config) (b : Byte) : encByte c b ≠ [] := by
  rcases hb : isRes c b with _ | _ <;> simp [encByte, hb, encEscBytes, encLitBytes]

/-- The first token of a body tells its payload byte: ESC, reserved itself, never stands for a literal (R73). -/
theorem encByte_append_inj {b b' : Byte} {w w' : List Byte} (h : encByte c b ++ w = encByte c b' ++ w') :
    b = b' ∧ w = w' := by
  have hesc : ∀ x : Byte, isRes c x = false → x ≠ c.ESC := fun x hx => (not_isRes_iff.mp hx).2.2
  rcases hb : isRes c b with _ | _ <;> rcases hb' : isRes c b' with _ | _ <;>
    simp only [encByte, hb, hb', encEscBytes, encLitBytes, if_true, Bool.false_eq_true, if_false, List.cons_append,
      List.nil_append, List.cons.injEq] at h
  · exact h
  · exact absurd h.1 (hesc b hb)
  · exact absurd h.1.symm (hesc b' hb')
  · exact h.2

theorem stuff_injective (h : stuff c p = stuff c q) : p = q := by
  induction p generalizing q with
  | nil =>
    cases q with
    | nil => rfl
    | cons b q => simp [encByte_ne_nil] at h
  | cons b p ih =>
    cases q with
    | nil => simp [encByte_ne_nil] at h
    | cons b' q =>
      rw [stuff_cons, stuff_cons] at h
      obtain ⟨rfl, hrest⟩ := encByte_append_inj h
      rw [ih hrest]

theorem encodeSeq_injective (h : encodeSeq c p = encodeSeq c q) : p = q := by
  rw [encodeSeq, encodeSeq] at h
  exact stuff_injective (List.append_cancel_left (List.append_cancel_right h))

/-! ### Its length (R71, 20_memory.md R40) -/

theorem encByte_length (c : Config) (b : Byte) : (encByte c b).length = if isRes c b then 2 else 1 := by
  unfold encByte
  split_ifs <;> rfl

theorem stuff_length (c : Config) (p : List Byte) : (stuff c p).length = p.length + p.countP (isRes c) := by
  induction p with
  | nil => rfl
  | cons b p ih =>
    rw [stuff_cons, List.length_append, encByte_length, ih, List.length_cons, List.countP_cons]
    split_ifs <;> omega

theorem encodeSeq_length (c : Config) (p : List Byte) :
    (encodeSeq c p).length = 2 + p.length + p.countP (isRes c) := by
  simp only [encodeSeq, List.length_append, stuff_length, List.length_singleton]
  omega

theorem encodeSeq_length_le (h : p.length ≤ c.M) : (encodeSeq c p).length ≤ 2 * c.M + 2 := by
  have hcount : p.countP (isRes c) ≤ p.length := List.countP_le_length
  rw [encodeSeq_length]
  omega

/-- `out_len` has room for the longest sequence (00_scope.md section 3). -/
theorem lt_two_pow_OW {n : Nat} (h : n ≤ 2 * c.M + 2) : n < 2 ^ c.OW :=
  lt_of_lt_of_le (Nat.lt_succ_of_le h) (Nat.le_pow_clog (by decide) _)

end Body

/-- Settles O22: the body is `stuff`, the only one of its payload, and each payload byte takes one or two bytes. -/
theorem encodedSequenceIsTheFrameOfItsPayload : Obligations.EncodedSequenceIsTheFrameOfItsPayload := by
  intro c p _
  refine ⟨⟨stuff c p, rfl, body_stuff c p, fun p' h => (stuff_injective (eq_stuff_of_body h)).symm⟩,
    fun q h => encodeSeq_injective h, encodeSeq_length c p, fun h => ?_⟩
  exact ⟨encodeSeq_length_le h, lt_two_pow_OW (encodeSeq_length_le h)⟩

end Sys2Proof.Machine
end

section
/-! PROOFS. The statement of 20_memory.md R48: two moves that drive different ports commute. -/

namespace Sys2Proof.Machine

/-! ### What one move shows and emits -/

/-- What the ports drive in the step of a move outside a command. Only a clock looks at a channel: its own. -/
def State.shown (s : State) : Move → StepOut
  | .clock ch =>
    match s.chans[ch]? with
    | some ⟨d, b :: _⟩ => .dec ch (stepTrans s.cfg d b).consumed (stepTrans s.cfg d b).frame
    | _ => .idle
  | .reset ch _ => .reset ch
  | .feed _ _ => .idle
  | .encode e p => if s.cfg.M < p.length then .enc e .frameTooLarge none else .enc e .ok (some (encodeSeq s.cfg p))
  | .idle => .idle

theorem step_out_eq_shown {s t : State} {m : Move} (h : step s = .next t) (hw : s.work = none)
    (hm : s.moves.head? = some m) : t.out = s.shown m := by
  rcases step_cases_outside_command h hw with ⟨p, hp, rfl⟩ | ⟨r, hr, rfl⟩ | ⟨hi | ⟨i, d, hi, hk⟩, rfl⟩ |
    ⟨i, keep, k, ms, hi, -, rfl⟩ | ⟨i, q, k, ms, hi, -, rfl⟩
  · obtain ⟨-, hi, hk⟩ := presented_iff.mp hp
    obtain rfl : .clock p.ch = m := by simpa [hi] using hm
    simp [State.shown, hk]
  · obtain ⟨-, hi, -⟩ := request_iff.mp hr
    obtain rfl : .encode r.enc r.payload = m := by simpa [hi] using hm
    simp only [State.shown]
    split_ifs <;> rfl
  · obtain rfl : m = .idle := by
      cases m with
      | idle => rfl
      | clock | reset | feed | encode => simp [hm, Move.drives] at hi
    rfl
  · obtain rfl : .clock i = m := by simpa [hi] using hm
    simp [State.shown, hk]
  · obtain rfl : .reset i keep = m := by simpa [hi] using hm
    rfl
  · obtain rfl : .feed i q = m := by simpa [hi] using hm
    rfl

/-- The ports of a move look at the configuration and at the channel that it drives. -/
theorem State.shown_congr {s s' : State} {m : Move} (hcfg : s.cfg = s'.cfg)
    (hchan : ∀ ch, m.drives = some (.dec ch) → s.chans[ch]? = s'.chans[ch]?) : s.shown m = s'.shown m := by
  cases m with
  | clock ch => simp only [State.shown, hchan ch rfl, hcfg]
  | encode e p => simp only [State.shown, hcfg]
  | reset | feed | idle => rfl

/-- The events of a step, read from its ports: a frame and a sequence are each one event (10_state.md R31, R34). -/
def StepOut.events : StepOut → List Event
  | .dec ch _ f => frameEvents ch f
  | .enc e _ (some q) => [.byteSink e q]
  | .enc _ _ none => []
  | .resetAll => []
  | .idle => []
  | .reset _ => []

theorem step_events_eq_out_events {s t : State} (h : step s = .next t) : t.events = s.events ++ t.out.events := by
  obtain ⟨-, ⟨p, -, rfl⟩ | ⟨r, -, rfl⟩ | ⟨b, w, -, rfl⟩ | ⟨-, hh⟩⟩ := step_cases h
  · rfl
  · split_ifs
    · exact (List.append_nil _).symm
    · rfl
  · exact (List.append_nil _).symm
  · rcases hostMove_next hh with ⟨w, -, rfl⟩ | ⟨-, ⟨-, rfl⟩ | ⟨ms, -, rfl⟩ | ⟨_, _, _, -, -, rfl⟩ |
      ⟨_, _, _, _, -, -, rfl⟩ | ⟨_, _, _, _, -, -, rfl⟩⟩
    · rfl
    all_goals exact (List.append_nil _).symm

/-- A move emits no frame on a channel that it does not drive. -/
theorem framesOf_shown_events {s : State} {m : Move} {ch : Nat} (h : m.drives ≠ some (.dec ch)) :
    framesOf ch (s.shown m).events = [] := by
  cases m with
  | clock i =>
    have hne : i ≠ ch := by simpa [Move.drives] using h
    simp only [State.shown]
    split
    · simp [StepOut.events, framesOf_frameEvents, hne]
    · rfl
  | encode e p =>
    simp only [State.shown]
    split_ifs <;> rfl
  | reset | feed | idle => rfl

theorem sequencesOf_frameEvents (e ch : Nat) (f : Option (List Byte)) : sequencesOf e (frameEvents ch f) = [] := by
  cases f <;> rfl

/-- A move emits no sequence of an ENC that it does not drive. -/
theorem sequencesOf_shown_events {s : State} {m : Move} {e : Nat} (h : m.drives ≠ some (.enc e)) :
    sequencesOf e (s.shown m).events = [] := by
  cases m with
  | clock i =>
    simp only [State.shown]
    split
    · exact sequencesOf_frameEvents e i _
    · rfl
  | encode i p =>
    have hne : i ≠ e := by simpa [Move.drives] using h
    simp only [State.shown]
    split_ifs <;> simp [StepOut.events, sequencesOf, hne]
  | reset | feed | idle => rfl

/-! ### Two moves in a row -/

/-- The machine has made the move `m` from `s` and stands in `t`, within the invariants and outside a command. -/
structure Moved (s : State) (m : Move) (t : State) : Prop where
  wf : t.Wf
  cfg : t.cfg = s.cfg
  work : t.work = none
  moves : t.moves = s.moves.tail
  out : t.out = s.shown m
  events : t.events = s.events ++ (s.shown m).events
  driven : ∀ ch, m.drives = some (.dec ch) →
    ∃ k, s.chans[ch]? = some k ∧ t.chans[ch]? = some (k.driven s.cfg m).1
  undriven : ∀ ch, m.drives ≠ some (.dec ch) → t.chans[ch]? = s.chans[ch]?

theorem exists_moved {s : State} {m : Move} (hs : s.Wf) (hw : s.work = none) (hm : s.moves.head? = some m)
    (hmwf : m.wf s.cfg) : ∃ t, step s = .next t ∧ Moved s m t := by
  obtain ⟨t, h⟩ := step_completes hs (by simp [hm, hmwf])
  obtain ⟨hwork, hmoves⟩ := step_work_moves_outside_command h hw
  have hout := step_out_eq_shown h hw hm
  refine ⟨t, h, step_keeps_wf hs h, step_keeps_cfg h, hwork, hmoves, hout, hout ▸ step_events_eq_out_events h,
    fun ch hd => ?_, fun ch hd => ?_⟩
  · obtain ⟨k, hk, hk', -⟩ := step_driven_chan h hw hm hd
    exact ⟨k, hk, hk'⟩
  · exact (step_undriven_chan h hw (by simpa [hm] using hd)).1

/-- From states that agree on what a move drives, the move leaves the driven channel the same. -/
theorem Moved.driven_congr {s s' t t' : State} {m : Move} (h : Moved s m t) (h' : Moved s' m t')
    (hcfg : s.cfg = s'.cfg) {ch : Nat} (hd : m.drives = some (.dec ch)) (hchan : s.chans[ch]? = s'.chans[ch]?) :
    t.chans[ch]? = t'.chans[ch]? := by
  obtain ⟨k, hk, ht⟩ := h.driven ch hd
  obtain ⟨k', hk', ht'⟩ := h'.driven ch hd
  obtain rfl : k = k' := Option.some.inj (hk.symm.trans (hchan.trans hk'))
  rw [ht, ht', hcfg]

/-- A move that drives another port in between does not change what a move finds on the channel that it drives. -/
theorem Moved.chan_of_drives_ne {s u : State} {m m' : Move} (h : Moved s m u) (hne : m.drives ≠ m'.drives) {ch : Nat}
    (hd : m'.drives = some (.dec ch)) : u.chans[ch]? = s.chans[ch]? :=
  h.undriven ch (hd ▸ hne)

/-- Settles O44: a move finds the channel that it drives the same whether it comes first or second, and the two moves
emit on different ports. -/
theorem interleavingChangesNoResult : Obligations.InterleavingChangesNoResult := by
  intro s m m' ms hs hw hm hm' hne
  obtain ⟨u, hu, hsu⟩ :=
    exists_moved (s := { s with moves := m :: m' :: ms }) (hs.of_chans_eq rfl rfl hs.work) hw rfl hm
  obtain ⟨u', hu', hsu'⟩ :=
    exists_moved (s := { s with moves := m' :: m :: ms }) (hs.of_chans_eq rfl rfl hs.work) hw rfl hm'
  obtain ⟨t, ht, hut⟩ := exists_moved hsu.wf hsu.work (by rw [hsu.moves]; rfl) (hsu.cfg.symm ▸ hm')
  obtain ⟨t', ht', hut'⟩ := exists_moved hsu'.wf hsu'.work (by rw [hsu'.moves]; rfl) (hsu'.cfg.symm ▸ hm)
  have hfirst : { s with moves := m :: m' :: ms }.shown m = u'.shown m :=
    State.shown_congr hsu'.cfg.symm fun ch hd => (hsu'.chan_of_drives_ne hne.symm hd).symm
  have hsecond : { s with moves := m' :: m :: ms }.shown m' = u.shown m' :=
    State.shown_congr hsu.cfg.symm fun ch hd => (hsu.chan_of_drives_ne hne hd).symm
  have hev : t.events = s.events ++ (u'.shown m).events ++ (u.shown m').events := by
    rw [hut.events, hsu.events, hfirst]
  have hev' : t'.events = s.events ++ (u.shown m').events ++ (u'.shown m).events := by
    rw [hut'.events, hsu'.events, hsecond]
  refine ⟨u, t, u', t', hu, ht, hu', ht', ?_, ?_, List.ext_getElem? fun ch => ?_, ?_, ?_, ?_, fun ch => ?_,
    fun e => ?_⟩
  · rw [hsu.out, hut'.out, hfirst]
  · rw [hut.out, hsu'.out, hsecond]
  · by_cases hd : m.drives = some (.dec ch)
    · rw [hut.undriven ch (hd ▸ hne.symm)]
      exact hsu.driven_congr hut' hsu'.cfg.symm hd (hsu'.chan_of_drives_ne hne.symm hd).symm
    · rw [hut'.undriven ch hd]
      by_cases hd' : m'.drives = some (.dec ch)
      · exact hut.driven_congr hsu' hsu.cfg hd' (hsu.undriven ch hd)
      · rw [hut.undriven ch hd', hsu.undriven ch hd, hsu'.undriven ch hd']
  · rw [hut.moves, hsu.moves, hut'.moves, hsu'.moves]
    rfl
  · rw [hut.work, hut'.work]
  · rw [hut.cfg, hsu.cfg, hut'.cfg, hsu'.cfg]
  · rw [hev, hev']
    by_cases hd : m.drives = some (.dec ch)
    · simp [framesOf_shown_events (hd ▸ hne.symm : m'.drives ≠ some (.dec ch))]
    · simp [framesOf_shown_events hd]
  · rw [hev, hev']
    by_cases hd : m.drives = some (.enc e)
    · simp [sequencesOf_shown_events (hd ▸ hne.symm : m'.drives ≠ some (.enc e))]
    · simp [sequencesOf_shown_events hd]

end Sys2Proof.Machine
end

section
/-! PROOFS. The stream laws of 42_stream.md section 4: the byte step as a whole, and what a feed of a stream
delivers. -/

namespace Sys2Proof.Machine

section ByteStep

variable {c : Config} {d : Dec} {a : Memory} {b : Byte}

/-! ### The byte step (41_decoder.md R95) -/

theorem byteStep_im_esc (c : Config) (a : Memory) : byteStep c ⟨.inMessage, a⟩ c.ESC = (⟨.afterEscape, a⟩, []) := by
  simp [byteStep, transition_im_esc, Trans.frames]

theorem byteStep_im_end (hv : c.valid = true) (a : Memory) :
    byteStep c ⟨.inMessage, a⟩ c.END = (⟨.waitHeader, []⟩, [a]) := by
  simp [byteStep, transition_im_end hv, Trans.frames]

theorem byteStep_im_lit (hb : isRes c b = false) (ha : a.length < c.M) :
    byteStep c ⟨.inMessage, a⟩ b = (⟨.inMessage, a ++ [b]⟩, []) := by
  simp [byteStep, transition_im_lit hb ha, Trans.frames]

theorem byteStep_ae_res (hb : isRes c b = true) (ha : a.length < c.M) :
    byteStep c ⟨.afterEscape, a⟩ b = (⟨.inMessage, a ++ [b]⟩, []) := by
  simp [byteStep, transition_ae_res hb ha, Trans.frames]

/-- A byte that is no START leaves an empty WaitHeader as it is. -/
theorem byteStep_wh_other (hb : b ≠ c.START) : byteStep c ⟨.waitHeader, []⟩ b = (⟨.waitHeader, []⟩, []) := by
  simp [byteStep, transition_wh_other hb, Trans.frames]

theorem ne_START_of_not_isRes (hb : isRes c b = false) : b ≠ c.START := (not_isRes_iff.mp hb).1

theorem byteStep_im_lit_full (hb : isRes c b = false) (ha : c.M ≤ a.length) :
    byteStep c ⟨.inMessage, a⟩ b = (⟨.waitHeader, []⟩, []) := by
  simp [byteStep_resync, transition_im_lit_full hb ha, ne_START_of_not_isRes hb]

theorem byteStep_ae_lit (hb : isRes c b = false) : byteStep c ⟨.afterEscape, a⟩ b = (⟨.waitHeader, []⟩, []) := by
  simp [byteStep_resync, transition_ae_lit hb, ne_START_of_not_isRes hb]

theorem byteStep_ae_res_full (hb : isRes c b = true) (ha : c.M ≤ a.length) :
    byteStep c ⟨.afterEscape, a⟩ b = (⟨if b = c.START then .inMessage else .waitHeader, []⟩, []) :=
  byteStep_resync (by rw [transition_ae_res_full hb ha])

/-- EVERYTHING A BYTE STEP CAN DO: open a frame, stay or fall back to WaitHeader, take an ESC, deliver the frame, or
store the byte with room. -/
theorem byteStep_cases (hv : c.valid = true) (hd : d.wf c) (b : Byte) :
    (b = c.START ∧ byteStep c d b = (⟨.inMessage, []⟩, [])) ∨
      ((d.state = .inMessage → c.M ≤ d.acc.length) ∧ byteStep c d b = (⟨.waitHeader, []⟩, [])) ∨
      (d.state = .inMessage ∧ b = c.ESC ∧ byteStep c d b = (⟨.afterEscape, d.acc⟩, [])) ∨
      (d.state = .inMessage ∧ b = c.END ∧ byteStep c d b = (⟨.waitHeader, []⟩, [d.acc])) ∨
      ((d.state = .inMessage ∧ isRes c b = false ∨ d.state = .afterEscape ∧ isRes c b = true) ∧
        byteStep c d b = (⟨.inMessage, d.acc ++ [b]⟩, [])) := by
  obtain ⟨st, a⟩ := d
  cases st with
  | waitHeader =>
    obtain rfl : a = [] := hd.2 rfl
    by_cases hb : b = c.START
    · exact .inl ⟨hb, hb ▸ byteStep_START hv (by simp)⟩
    · exact .inr (.inl ⟨by simp, byteStep_wh_other hb⟩)
  | inMessage =>
    rcases hb : isRes c b with _ | _
    · rcases Nat.lt_or_ge a.length c.M with ha | ha
      · exact .inr (.inr (.inr (.inr ⟨.inl ⟨rfl, rfl⟩, byteStep_im_lit hb ha⟩)))
      · exact .inr (.inl ⟨fun _ => ha, byteStep_im_lit_full hb ha⟩)
    · rcases isRes_iff.mp hb with rfl | rfl | rfl
      · exact .inl ⟨rfl, byteStep_START hv (by simp)⟩
      · exact .inr (.inr (.inr (.inl ⟨rfl, rfl, byteStep_im_end hv a⟩)))
      · exact .inr (.inr (.inl ⟨rfl, rfl, byteStep_im_esc c a⟩))
  | afterEscape =>
    rcases hb : isRes c b with _ | _
    · exact .inr (.inl ⟨by simp, byteStep_ae_lit hb⟩)
    · rcases Nat.lt_or_ge a.length c.M with ha | ha
      · exact .inr (.inr (.inr (.inr ⟨.inr ⟨rfl, rfl⟩, byteStep_ae_res hb ha⟩)))
      · rw [byteStep_ae_res_full hb ha]
        split_ifs with hs
        · exact .inl ⟨hs, rfl⟩
        · exact .inr (.inl ⟨by simp, rfl⟩)

theorem Dec.wf_byteStep (hd : d.wf c) (b : Byte) : (byteStep c d b).1.wf c := by
  rcases hcons : (transition c d b).consumed with _ | _
  · rw [byteStep_resync hcons]
    exact Dec.wf_empty c _
  · rw [byteStep_consumed hcons]
    exact Dec.wf_transition hd b

/-! ### The feed -/

theorem Dec.wf_feed (hd : d.wf c) (bs : List Byte) : (feed c d bs).1.wf c := by
  induction bs generalizing d with
  | nil => exact hd
  | cons b bs ih => exact ih (Dec.wf_byteStep hd b)

theorem feed_singleton (c : Config) (d : Dec) (b : Byte) : feed c d [b] = byteStep c d b := by
  simp [feed_cons]

theorem feed_concat (c : Config) (d : Dec) (bs : List Byte) (b : Byte) :
    feed c d (bs ++ [b]) =
      ((byteStep c (feed c d bs).1 b).1, (feed c d bs).2 ++ (byteStep c (feed c d bs).1 b).2) := by
  rw [feed_append, feed_singleton]

/-- Without an ESC no stream leads into AfterEscape. -/
theorem feed_state_ne_afterEscape (hv : c.valid = true) (hd : d.wf c) (hst : d.state ≠ .afterEscape) {bs : List Byte}
    (hbs : c.ESC ∉ bs) : (feed c d bs).1.state ≠ .afterEscape := by
  induction bs generalizing d with
  | nil => exact hst
  | cons b bs ih =>
    obtain ⟨hb, hrest⟩ := List.ne_and_not_mem_of_not_mem_cons hbs
    refine ih (Dec.wf_byteStep hd b) ?_ hrest
    rcases byteStep_cases hv hd b with ⟨-, h⟩ | ⟨-, h⟩ | ⟨-, he, -⟩ | ⟨-, -, h⟩ | ⟨-, h⟩
    on_goal 3 => exact absurd he.symm hb
    all_goals simp [h]

/-- Once a stream has led outside AfterEscape, a gap without ESC and an encoded payload deliver that payload. -/
theorem feed_gap_encodeSeq (hv : c.valid = true) {d₁ : Dec} {xs gap q : List Byte} (hxs : feed c d xs = (d₁, []))
    (hd₁ : d₁.wf c) (hst : d₁.state ≠ .afterEscape) (hgap : c.ESC ∉ gap) (hq : q.length ≤ c.M) :
    feed c d (xs ++ gap ++ encodeSeq c q) = (⟨.waitHeader, []⟩, (feed c d₁ gap).2 ++ [q]) := by
  rw [feed_append, feed_append, hxs, feed_encodeSeq hv (feed_state_ne_afterEscape hv hd₁ hst hgap) hq]
  rfl

/-! ### The flush sequence (R113) -/

/-- A non-reserved byte is stored or leads to WaitHeader. -/
theorem byteStep_of_not_isRes (hv : c.valid = true) (hd : d.wf c) (hb : isRes c b = false) :
    byteStep c d b = (⟨.waitHeader, []⟩, []) ∨ byteStep c d b = (⟨.inMessage, d.acc ++ [b]⟩, []) := by
  obtain ⟨hs, he, hx⟩ := not_isRes_iff.mp hb
  rcases byteStep_cases hv hd b with ⟨h, -⟩ | ⟨-, h⟩ | ⟨-, h, -⟩ | ⟨-, h, -⟩ | ⟨-, h⟩
  · exact absurd h hs
  · exact .inl h
  · exact absurd h hx
  · exact absurd h he
  · exact .inr h

theorem feed_flush (hv : c.valid = true) (hd : d.wf c) {x : Byte} (hx : isRes c x = false) :
    feed c d [x, c.ESC, x] = (⟨.waitHeader, []⟩, []) := by
  have hESC : c.ESC ≠ c.START := (valid_iff.mp hv).2.1.symm
  rcases byteStep_of_not_isRes hv hd hx with h | h
  · simp [feed_cons, h, byteStep_wh_other hESC, byteStep_wh_other (ne_START_of_not_isRes hx)]
  · simp [feed_cons, h, byteStep_im_esc, byteStep_ae_lit hx]

/-- With room no single byte leads InMessage to WaitHeader without an event. -/
theorem byteStep_im_ne_flushed (hv : c.valid = true) (ha : a.length < c.M) (b : Byte) :
    byteStep c ⟨.inMessage, a⟩ b ≠ (⟨.waitHeader, []⟩, []) := by
  intro h
  rcases byteStep_cases (d := ⟨.inMessage, a⟩) hv ⟨ha.le, by simp⟩ b with
    ⟨-, h'⟩ | ⟨hfull, -⟩ | ⟨-, -, h'⟩ | ⟨-, -, h'⟩ | ⟨-, h'⟩
  on_goal 2 => exact absurd (hfull rfl) (Nat.not_le.mpr ha)
  all_goals simp [h'] at h

/-- Every byte is one that some state stores. -/
theorem exists_byteStep_stores (hM : 0 < c.M) (b : Byte) :
    ∃ d : Dec, d.wf c ∧ byteStep c d b = (⟨.inMessage, [b]⟩, []) := by
  rcases hb : isRes c b with _ | _
  · exact ⟨⟨.inMessage, []⟩, Dec.wf_empty c _, byteStep_im_lit hb hM⟩
  · exact ⟨⟨.afterEscape, []⟩, Dec.wf_empty c _, byteStep_ae_res hb hM⟩

/-! ### What stands in the stream (R94, R114, 10_state.md R21) -/

/-- The frame in progress is the payload of the bytes of the stream since its START. -/
structure FrameStands (c : Config) (bs : List Byte) (d : Dec) : Prop where
  inMessage : d.state = .inMessage → ∃ pre, bs = pre ++ c.START :: stuff c d.acc
  afterEscape : d.state = .afterEscape → ∃ pre, bs = pre ++ c.START :: stuff c d.acc ++ [c.ESC]

theorem FrameStands.waitHeader (c : Config) (bs : List Byte) (a : Memory) : FrameStands c bs ⟨.waitHeader, a⟩ :=
  ⟨nofun, nofun⟩

/-- The bytes that stand for an accumulator, and one more stored byte. -/
theorem stuff_concat (c : Config) (a : Memory) (b : Byte) : stuff c (a ++ [b]) = stuff c a ++ encByte c b := by
  simp [stuff_append]

/-- A byte step keeps the frame in progress standing in the stream, and a frame that it delivers ends the stream. -/
theorem FrameStands.concat (hv : c.valid = true) (hd : d.wf c) {bs : List Byte} (h : FrameStands c bs d) (b : Byte) :
    FrameStands c (bs ++ [b]) (byteStep c d b).1 ∧
      ∀ f ∈ (byteStep c d b).2, f = d.acc ∧ ∃ pre, bs ++ [b] = pre ++ encodeSeq c f := by
  rcases byteStep_cases hv hd b with ⟨rfl, he⟩ | ⟨-, he⟩ | ⟨hst, rfl, he⟩ | ⟨hst, rfl, he⟩ | ⟨hst, he⟩ <;> rw [he]
  · exact ⟨⟨fun _ => ⟨bs, rfl⟩, nofun⟩, nofun⟩
  · exact ⟨.waitHeader c _ _, nofun⟩
  · obtain ⟨pre, hpre⟩ := h.inMessage hst
    exact ⟨⟨nofun, fun _ => ⟨pre, by rw [hpre]⟩⟩, nofun⟩
  · obtain ⟨pre, hpre⟩ := h.inMessage hst
    refine ⟨.waitHeader c _ _, fun f hf => ?_⟩
    obtain rfl := List.mem_singleton.mp hf
    exact ⟨rfl, pre, by simp [hpre, encodeSeq]⟩
  · refine ⟨⟨fun _ => ?_, nofun⟩, nofun⟩
    rcases hst with ⟨hst, hb⟩ | ⟨hst, hb⟩
    · obtain ⟨pre, hpre⟩ := h.inMessage hst
      exact ⟨pre, by simp [hpre, stuff_concat, encByte, hb, encLitBytes]⟩
    · obtain ⟨pre, hpre⟩ := h.afterEscape hst
      exact ⟨pre, by simp [hpre, stuff_concat, encByte, hb, encEscBytes]⟩

/-- Over a stream from reset the frame in progress stands in it, and so does every delivered frame. -/
theorem feed_frames_stand (hv : c.valid = true) (bs : List Byte) :
    FrameStands c bs (feed c Dec.reset bs).1 ∧
      ∀ f ∈ (feed c Dec.reset bs).2, f.length ≤ c.M ∧ ∃ pre post, bs = pre ++ encodeSeq c f ++ post := by
  induction bs using List.reverseRecOn with
  | nil => exact ⟨.waitHeader c _ _, nofun⟩
  | append_singleton bs b ih =>
    obtain ⟨hst, hframes⟩ := ih
    have hd : (feed c Dec.reset bs).1.wf c := Dec.wf_feed (Dec.wf_reset c) bs
    obtain ⟨hst', hnew⟩ := hst.concat hv hd b
    rw [feed_concat]
    refine ⟨hst', fun f hf => ?_⟩
    rcases List.mem_append.mp hf with hf | hf
    · obtain ⟨hlen, pre, post, hpre⟩ := hframes f hf
      exact ⟨hlen, pre, post ++ [b], by rw [hpre, List.append_assoc]⟩
    · obtain ⟨rfl, pre, hpre⟩ := hnew f hf
      exact ⟨hd.1, pre, [], by rw [hpre, List.append_nil]⟩

/-- Literal bytes are their own stuffing. -/
theorem stuff_of_not_isRes {p : List Byte} (h : ∀ x ∈ p, isRes c x = false) : stuff c p = p := by
  induction p with
  | nil => rfl
  | cons b p ih =>
    obtain ⟨hb, hp⟩ := List.forall_mem_cons.mp h
    simp [encByte, hb, encLitBytes, ih hp]

end ByteStep

/-! ### The obligations -/

/-- Settles O48: a START opens a frame, the stuffed payload fills it, and END delivers it. -/
theorem roundTrip : Obligations.RoundTrip :=
  fun _ _ _ hv hp hd => feed_encodeSeq hv hd hp

/-- Settles O53: the byte step of a START in each state, with room and without. -/
theorem startOpensAFrameExceptAfterEscapeWithRoom : Obligations.StartOpensAFrameExceptAfterEscapeWithRoom := by
  rintro c ⟨st, a⟩ hv -
  constructor
  · rintro (hst | hfull)
    · exact byteStep_START hv hst
    · by_cases hst : st = .afterEscape
      · subst hst
        rw [byteStep_ae_res_full (isRes_START c) hfull.ge, if_pos rfl]
      · exact byteStep_START hv hst
  · rintro rfl hroom
    exact byteStep_ae_res (isRes_START c) hroom

/-- Settles O54: WaitHeader skips the noise and comes back to WaitHeader after each sequence. -/
theorem concatenatedFramesAreDeliveredInOrder : Obligations.ConcatenatedFramesAreDeliveredInOrder := by
  intro c gps tail hv hgps htail
  rw [Dec.reset]
  induction gps with
  | nil => exact feed_waitHeader_of_not_mem htail
  | cons gp gps ih =>
    obtain ⟨⟨hgap, hlen⟩, hrest⟩ := List.forall_mem_cons.mp hgps
    rw [List.flatMap_cons, List.append_assoc, List.append_assoc, feed_append, feed_waitHeader_of_not_mem hgap,
      feed_append, feed_encodeSeq hv (by simp) hlen, ih hrest]
    rfl

/-- Settles O52: the frame that holds M bytes drops at the next one, which then counts outside the frame. -/
theorem oversizedFrameIsDroppedAndDecodingGoesOn : Obligations.OversizedFrameIsDroppedAndDecodingGoesOn := by
  intro c d p b r hv hd hp hb hr
  have hlit : feed c d (c.START :: stuff c p ++ [b]) = (⟨.waitHeader, []⟩, []) := by
    rw [feed_concat, feed_START_stuff hv hd hp.le, byteStep_im_lit_full hb hp.ge]
    rfl
  have hesc : feed c d (c.START :: stuff c p ++ [c.ESC, r]) =
      (⟨if r = c.START then .inMessage else .waitHeader, []⟩, []) := by
    rw [feed_append, feed_START_stuff hv hd hp.le, feed_cons, byteStep_im_esc, feed_singleton,
      byteStep_ae_res_full hr hp.ge]
    rfl
  refine ⟨hlit, hesc, fun gap q hgap hq => ⟨?_, ?_⟩⟩
  · exact feed_gap_encodeSeq hv hlit (Dec.wf_empty c _) (by simp) hgap hq
  · exact feed_gap_encodeSeq hv hesc (Dec.wf_empty c _) (by dsimp only; split_ifs <;> simp) hgap hq

/-- Settles O55: of two bytes, the first is stored from some state, and the second does not flush InMessage. -/
theorem flushNeedsThreeBytes : Obligations.FlushNeedsThreeBytes := by
  intro c hv
  obtain ⟨-, -, -, hM, -⟩ := valid_iff.mp hv
  have hroom : ∀ a : Memory, a.length ≤ 1 → a.length < c.M := fun a ha => by omega
  refine ⟨fun d x hd hx => feed_flush hv hd hx, fun bs hbs => ?_⟩
  match bs, hbs with
  | [], _ => exact ⟨⟨.inMessage, []⟩, Dec.wf_empty c _, by simp⟩
  | [b], _ =>
    refine ⟨⟨.inMessage, []⟩, Dec.wf_empty c _, ?_⟩
    rw [feed_singleton]
    exact byteStep_im_ne_flushed hv (hroom [] (by simp)) b
  | [b, b'], _ =>
    obtain ⟨d, hd, h⟩ := exists_byteStep_stores (by omega : 0 < c.M) b
    refine ⟨d, hd, ?_⟩
    rw [feed_cons, h, feed_singleton]
    exact byteStep_im_ne_flushed hv (hroom [b] le_rfl) b'

/-- Settles O56: what stands in a stream still stands when one more byte comes. -/
theorem deliveredFramesStandEncodedInTheStream : Obligations.DeliveredFramesStandEncodedInTheStream := by
  intro c bs hv
  obtain ⟨hst, hframes⟩ := feed_frames_stand hv bs
  exact ⟨hframes, hst.inMessage, hst.afterEscape⟩

/-- Settles O57: the literal bytes fill the frame that START opened, and a byte step keeps the invariants. -/
theorem reachableDecoderStates : Obligations.ReachableDecoderStates := by
  intro c hv
  refine ⟨fun lits hlits hlen => ?_, fun bs => Dec.wf_feed (Dec.wf_reset c) bs⟩
  have hopen : feed c Dec.reset (c.START :: lits) = (⟨.inMessage, lits⟩, []) := by
    have h := feed_START_stuff hv (d := Dec.reset) (by simp [Dec.reset]) hlen
    rwa [stuff_of_not_isRes hlits] at h
  refine ⟨hopen, ?_⟩
  rw [feed_concat, hopen, byteStep_im_esc]
  rfl

end Sys2Proof.Machine
end

section
/-! PROOFS. The driving loop and the machine (42_stream.md R98, R99, R107, 41_decoder.md R95): how many passes a stream
takes, the fused step, and the moves of a feed, fused or not. -/

namespace Sys2Proof.Machine

/-! ### The passes of one byte (R95, R99) -/

section Passes

variable {c : Config} {d : Dec} {b : Byte} {bs : List Byte} {fs : List (List Byte)}

theorem loopPasses_add (c : Config) (m n : Nat) (l : LoopState) :
    loopPasses c (m + n) l = loopPasses c n (loopPasses c m l) := by
  induction m generalizing l with
  | zero => rw [Nat.zero_add]; rfl
  | succ m ih => rw [Nat.succ_add]; exact ih _

/-- At the end of the bytes the loop does nothing. -/
theorem loopPasses_end (c : Config) (n : Nat) (d : Dec) (fs : List (List Byte)) :
    loopPasses c n ⟨d, fs, []⟩ = ⟨d, fs, []⟩ := by
  induction n with
  | zero => rfl
  | succ n ih => exact ih

/-- The passes that the loop takes over one byte: a transition, and its replay after a resync. -/
def bytePasses (c : Config) (d : Dec) (b : Byte) : Nat := if (transition c d b).consumed then 1 else 2

theorem bytePasses_of_consumed (h : (transition c d b).consumed = true) : bytePasses c d b = 1 := by
  simp [bytePasses, h]

theorem bytePasses_of_resync (h : (transition c d b).consumed = false) : bytePasses c d b = 2 := by
  simp [bytePasses, h]

theorem bytePasses_bounds (c : Config) (d : Dec) (b : Byte) : 1 ≤ bytePasses c d b ∧ bytePasses c d b ≤ 2 := by
  unfold bytePasses
  split_ifs <;> simp

theorem transCount_cons (c : Config) (d : Dec) (b : Byte) (bs : List Byte) :
    transCount c d (b :: bs) = bytePasses c d b + transCount c (byteStep c d b).1 bs := rfl

theorem loopPass_consumed (h : (transition c d b).consumed = true) :
    loopPass c ⟨d, fs, b :: bs⟩ = ⟨(byteStep c d b).1, fs ++ (byteStep c d b).2, bs⟩ := by
  simp [loopPass, h, byteStep_consumed h]

/-- A resync leaves the byte at the cursor, and the next pass replays it. -/
theorem loopPass_resync (h : (transition c d b).consumed = false) :
    loopPass c ⟨d, fs, b :: bs⟩ = ⟨⟨.waitHeader, []⟩, fs, b :: bs⟩ ∧
      loopPasses c 2 ⟨d, fs, b :: bs⟩ = ⟨(byteStep c d b).1, fs ++ (byteStep c d b).2, bs⟩ := by
  have hfirst : loopPass c ⟨d, fs, b :: bs⟩ = ⟨⟨.waitHeader, []⟩, fs, b :: bs⟩ := by
    simp [loopPass, transition_unconsumed h, Trans.frames]
  refine ⟨hfirst, ?_⟩
  rw [loopPasses, hfirst]
  simp [loopPasses, loopPass, transition_replay, byteStep_resync h, Trans.frames]

theorem length_le_transCount (c : Config) (d : Dec) (bs : List Byte) : bs.length ≤ transCount c d bs := by
  induction bs generalizing d with
  | nil => exact le_rfl
  | cons b bs ih =>
    have hb := bytePasses_bounds c d b
    have hrest := ih (byteStep c d b).1
    rw [transCount_cons, List.length_cons]
    omega

theorem transCount_le (c : Config) (d : Dec) (bs : List Byte) : transCount c d bs ≤ 2 * bs.length := by
  induction bs generalizing d with
  | nil => exact le_rfl
  | cons b bs ih =>
    have hb := bytePasses_bounds c d b
    have hrest := ih (byteStep c d b).1
    rw [transCount_cons, List.length_cons]
    omega

/-- The passes of the first byte are its byte step. -/
theorem loopPasses_byte (c : Config) (d : Dec) (b : Byte) (bs : List Byte) (fs : List (List Byte)) :
    loopPasses c (bytePasses c d b) ⟨d, fs, b :: bs⟩ = ⟨(byteStep c d b).1, fs ++ (byteStep c d b).2, bs⟩ := by
  rcases hcons : (transition c d b).consumed with _ | _
  · rw [bytePasses_of_resync hcons]
    exact (loopPass_resync hcons).2
  · rw [bytePasses_of_consumed hcons]
    exact loopPass_consumed hcons

theorem loopPasses_transCount (c : Config) (d : Dec) (bs : List Byte) (fs : List (List Byte)) :
    loopPasses c (transCount c d bs) ⟨d, fs, bs⟩ = ⟨(feed c d bs).1, fs ++ (feed c d bs).2, []⟩ := by
  induction bs generalizing d fs with
  | nil => simp [transCount, loopPasses]
  | cons b bs ih =>
    rw [transCount_cons, loopPasses_add, loopPasses_byte, ih, feed_cons, List.append_assoc]

/-- Twice as many passes as bytes are enough, and more do no harm. -/
theorem loopPasses_of_two_mul_length_le {n : Nat} (h : 2 * bs.length ≤ n) :
    loopPasses c n ⟨d, fs, bs⟩ = ⟨(feed c d bs).1, fs ++ (feed c d bs).2, []⟩ := by
  have hn : n = transCount c d bs + (n - transCount c d bs) := by
    have := transCount_le c d bs
    omega
  rw [hn, loopPasses_add, loopPasses_transCount, loopPasses_end]

/-- Before the passes of the first byte are done, the loop still has it. -/
theorem rest_loopPasses_byte {k : Nat} (h : k < bytePasses c d b) :
    (loopPasses c k ⟨d, fs, b :: bs⟩).rest = b :: bs := by
  rcases hcons : (transition c d b).consumed with _ | _
  · rw [bytePasses_of_resync hcons] at h
    obtain rfl | rfl : k = 0 ∨ k = 1 := by omega
    · rfl
    · exact congrArg LoopState.rest (loopPass_resync hcons).1
  · rw [bytePasses_of_consumed hcons] at h
    obtain rfl : k = 0 := by omega
    rfl

theorem rest_loopPasses_ne_nil {k : Nat} (h : k < transCount c d bs) : (loopPasses c k ⟨d, fs, bs⟩).rest ≠ [] := by
  induction bs generalizing d fs k with
  | nil => exact absurd h (Nat.not_lt_zero k)
  | cons b bs ih =>
    rw [transCount_cons] at h
    rcases Nat.lt_or_ge k (bytePasses c d b) with hk | hk
    · simp [rest_loopPasses_byte hk]
    · obtain ⟨j, rfl⟩ := Nat.exists_eq_add_of_le hk
      rw [loopPasses_add, loopPasses_byte]
      exact ih (Nat.add_lt_add_iff_left.mp h)

end Passes

/-- Settles O46: a byte takes one pass or two, and its passes are its byte step. -/
theorem theDrivingLoopEnds : Obligations.TheDrivingLoopEnds := by
  intro c d bs _
  exact ⟨length_le_transCount c d bs, transCount_le c d bs, by simpa using loopPasses_transCount c d bs [],
    fun _ => rest_loopPasses_ne_nil⟩

/-! ### The fused step (10_state.md R30) -/

/-- One fused step is the byte step, and its byte is consumed. -/
theorem stepTrans_of_fused {c : Config} (hf : c.fused = true) (d : Dec) (b : Byte) :
    (stepTrans c d b).consumed = true ∧ (stepTrans c d b).dec = (byteStep c d b).1 ∧
      (stepTrans c d b).frames = (byteStep c d b).2 := by
  rcases hcons : (transition c d b).consumed with _ | _
  · simp [stepTrans, hf, hcons, transition_replay, byteStep_resync hcons, Trans.frames]
  · simp [stepTrans, hcons, byteStep_consumed hcons]

theorem frameEvents_eq_map_frames (ch : Nat) (t : Trans) :
    frameEvents ch t.frame = t.frames.map (Event.frameSink ch) :=
  frameEvents_eq_map ch t.frame

/-- The machine built in the unfused form, before these moves. -/
def State.unfused (s : State) (ms : List Move) : State :=
  { s with cfg := { s.cfg with fused := false }, moves := ms }

/-- No transition looks at the form the machine is built in. -/
theorem transition_unfused (s : State) (ms : List Move) (d : Dec) (b : Byte) :
    transition (s.unfused ms).cfg d b = transition s.cfg d b := rfl

theorem byteStep_unfused (s : State) (ms : List Move) (d : Dec) (b : Byte) :
    byteStep (s.unfused ms).cfg d b = byteStep s.cfg d b := rfl

/-- Settles O47: the fused step commits the byte step, and two passes of the loop are a transition and its replay. -/
theorem fusedStepIsTransitionAndReplay : Obligations.FusedStepIsTransitionAndReplay := by
  intro s ch d b rest ms h hd hf
  obtain ⟨hcons, hdec, hframes⟩ := stepTrans_of_fused hf d b
  refine ⟨_, h.step hd.1, by simp [StepOut.inReady, hcons], rfl, by simp [hcons, hdec],
    by simp [frameEvents_eq_map_frames, hframes], fun hun => ?_⟩
  obtain ⟨hv, hw, -, hk⟩ := h
  obtain ⟨hl, -⟩ := List.getElem?_eq_some_iff.mp hk
  have hstart : (s.unfused (.clock ch :: .clock ch :: ms)).AtLoop _ ch ⟨d, [], b :: rest⟩ :=
    State.AtLoop.start hw hk hd
  have hv' : (s.unfused (.clock ch :: .clock ch :: ms)).cfg.valid = true := hv
  obtain ⟨u, hrun, hmu, hu⟩ := hstart.run (n := 2) hv' rfl hl rfl
  rw [← transition_unfused s (.clock ch :: .clock ch :: ms)] at hun
  refine ⟨u, hrun, ?_, ?_, hmu⟩
  · rw [hu.chans, (loopPass_resync hun).2, byteStep_unfused]
    simp [State.unfused, hcons, hdec]
  · rw [hu.events, (loopPass_resync hun).2, byteStep_unfused]
    simp [State.unfused, frameEvents_eq_map_frames, hframes]

/-! ### The moves of a feed on the machine, fused or not (30_encoding.md R65) -/

section Loop

variable {s₀ s : State} {ch : Nat} {l : LoopState} {ms : List Move} {d : Dec} {fs : List (List Byte)} {bs : List Byte}

/-- A step of the fused form takes the loop past one whole byte. -/
theorem State.AtLoop.step_fused {b : Byte} (h : s₀.AtLoop s ch ⟨d, fs, b :: bs⟩) (hv : s₀.cfg.valid = true)
    (hf : s₀.cfg.fused = true) (hch : ch < s₀.chans.length) (hm : s.moves = .clock ch :: ms) :
    ∃ t, Machine.step s = .next t ∧ t.moves = ms ∧
      s₀.AtLoop t ch ⟨(byteStep s₀.cfg d b).1, fs ++ (byteStep s₀.cfg d b).2, bs⟩ := by
  obtain ⟨hcfg, hw, hchans, hev, hd⟩ := h
  have hk : s.chans[ch]? = some ⟨d, b :: bs⟩ := by rw [hchans, List.getElem?_set_self hch]
  have hp : s.Presents ch d b bs ms := ⟨hcfg ▸ hv, hw, hm, hk⟩
  have hstep := hp.step (hcfg ▸ hd.1)
  obtain ⟨hcons, hdec, hframes⟩ := stepTrans_of_fused hf d b
  rw [hcfg] at hstep
  refine ⟨_, hstep, rfl, hcfg, hw, ?_, ?_, Dec.wf_byteStep hd b⟩
  · simp [hchans, hcons, hdec]
  · simp [hev, frameEvents_eq_map_frames, hframes]

/-- At the end of the bytes a clock leaves the loop where it stands. -/
theorem State.AtLoop.step_end (h : s₀.AtLoop s ch ⟨d, fs, []⟩) (hv : s₀.cfg.valid = true)
    (hch : ch < s₀.chans.length) (hm : s.moves = .clock ch :: ms) :
    ∃ t, Machine.step s = .next t ∧ t.moves = ms ∧ s₀.AtLoop t ch ⟨d, fs, []⟩ := by
  obtain ⟨hcfg, hw, hchans, hev, hd⟩ := h
  have hk : s.chans[ch]? = some ⟨d, []⟩ := by rw [hchans, List.getElem?_set_self hch]
  exact ⟨_, step_of_clock_no_input (hcfg ▸ hv) hw hm hk, rfl, hcfg, hw, hchans, hev, hd⟩

/-- As many fused steps as bytes feed them all. -/
theorem State.AtLoop.run_fused (hv : s₀.cfg.valid = true) (hf : s₀.cfg.fused = true) (hch : ch < s₀.chans.length)
    {n : Nat} (hn : bs.length ≤ n) (h : s₀.AtLoop s ch ⟨d, fs, bs⟩)
    (hm : s.moves = List.replicate n (.clock ch) ++ ms) :
    ∃ t, Machine.run n s = .next t ∧ t.moves = ms ∧
      s₀.AtLoop t ch ⟨(feed s₀.cfg d bs).1, fs ++ (feed s₀.cfg d bs).2, []⟩ := by
  induction n generalizing s d fs bs with
  | zero =>
    obtain rfl : bs = [] := List.length_eq_zero_iff.mp (Nat.le_zero.mp hn)
    exact ⟨s, rfl, hm, by simpa using h⟩
  | succ n ih =>
    cases bs with
    | nil =>
      obtain ⟨u, hstep, hmu, hu⟩ := h.step_end hv hch hm
      rw [run_succ hstep]
      exact ih (Nat.zero_le n) hu hmu
    | cons b bs =>
      obtain ⟨u, hstep, hmu, hu⟩ := h.step_fused hv hf hch hm
      rw [run_succ hstep, feed_cons, ← List.append_assoc]
      exact ih (Nat.le_of_succ_le_succ hn) hu hmu

/-- In either form, two steps for each byte feed them all. -/
theorem State.AtLoop.run_feed (hv : s₀.cfg.valid = true) (hch : ch < s₀.chans.length)
    (h : s₀.AtLoop s ch ⟨d, fs, bs⟩) (hm : s.moves = List.replicate (2 * bs.length) (.clock ch) ++ ms) :
    ∃ t, Machine.run (2 * bs.length) s = .next t ∧ t.moves = ms ∧
      s₀.AtLoop t ch ⟨(feed s₀.cfg d bs).1, fs ++ (feed s₀.cfg d bs).2, []⟩ := by
  rcases hf : s₀.cfg.fused with _ | _
  · rw [← loopPasses_of_two_mul_length_le le_rfl]
    exact h.run hv hf hch hm
  · exact h.run_fused hv hf hch (Nat.le_mul_of_pos_left _ (by decide)) hm

end Loop

/-- The machine `t` has fed `bs` to channel `ch` of `s`, whose decoder was `d`, and has the moves `ms` left. -/
structure Fed (s : State) (ch : Nat) (d : Dec) (bs : List Byte) (ms : List Move) (t : State) : Prop where
  cfg : t.cfg = s.cfg
  work : t.work = none
  moves : t.moves = ms
  chans : t.chans = s.chans.set ch ⟨(feed s.cfg d bs).1, []⟩
  events : t.events = s.events ++ (feed s.cfg d bs).2.map (Event.frameSink ch)

theorem feedMoves_length (ch : Nat) (bs : List Byte) : (feedMoves ch bs).length = 1 + 2 * bs.length := by
  simp [feedMoves, Nat.add_comm]

section Fed

variable {s t u : State} {ch : Nat} {d : Dec} {bs bs' : List Byte} {ms : List Move}

/-- A feed begins a driving loop over its bytes. -/
theorem State.AtLoop.startFeed (hw : s.work = none) (hl : ch < s.chans.length) (hd : d.wf s.cfg) :
    (s.startFeed ch ⟨d, []⟩ bs ms).AtLoop (s.startFeed ch ⟨d, []⟩ bs ms) ch ⟨d, [], bs⟩ :=
  .start hw (List.getElem?_set_self hl) hd

/-- The moves of one feed. -/
theorem run_feedMoves (hv : s.cfg.valid = true) (hw : s.work = none) (hk : s.chans[ch]? = some ⟨d, []⟩)
    (hd : d.wf s.cfg) (hm : s.moves = feedMoves ch bs ++ ms) :
    ∃ t, run (feedMoves ch bs).length s = .next t ∧ Fed s ch d bs ms t := by
  obtain ⟨hl, -⟩ := List.getElem?_eq_some_iff.mp hk
  have hstart := State.AtLoop.startFeed (bs := bs) (ms := List.replicate (2 * bs.length) (.clock ch) ++ ms) hw hl hd
  obtain ⟨t, hrun, hmt, ht⟩ := State.AtLoop.run_feed (s₀ := s.startFeed _ _ _ _) hv (by simpa using hl) hstart rfl
  refine ⟨t, ?_, ht.cfg, ht.work, hmt, ?_, ht.events⟩
  · rw [feedMoves_length, Nat.add_comm, run_succ (step_of_feed hv hw hm hk)]
    exact hrun
  · rw [ht.chans, State.startFeed_chans, List.set_set]
    rfl

/-- The channel after a feed. -/
theorem Fed.chan (h : Fed s ch d bs ms t) (hl : ch < s.chans.length) :
    t.chans[ch]? = some ⟨(feed s.cfg d bs).1, []⟩ := by
  rw [h.chans, List.getElem?_set_self hl]

/-- Two feeds in a row are the feed of their concatenation (42_stream.md R107). -/
theorem Fed.trans {ms' : List Move} (h : Fed s ch d bs ms t) (h' : Fed t ch (feed s.cfg d bs).1 bs' ms' u) :
    Fed s ch d (bs ++ bs') ms' u where
  cfg := h'.cfg.trans h.cfg
  work := h'.work
  moves := h'.moves
  chans := by rw [h'.chans, h.chans, h.cfg, List.set_set, feed_append]
  events := by rw [h'.events, h.events, h.cfg, feed_append, List.map_append, List.append_assoc]

/-- The moves of several feeds. -/
theorem run_flatMap_feedMoves {bss : List (List Byte)} (hv : s.cfg.valid = true) (hw : s.work = none)
    (hk : s.chans[ch]? = some ⟨d, []⟩) (hd : d.wf s.cfg) (hm : s.moves = bss.flatMap (feedMoves ch) ++ ms) :
    ∃ t, run (bss.flatMap (feedMoves ch)).length s = .next t ∧ Fed s ch d bss.flatten ms t := by
  obtain ⟨hl, hget⟩ := List.getElem?_eq_some_iff.mp hk
  induction bss generalizing s d with
  | nil =>
    refine ⟨s, rfl, rfl, hw, hm, ?_, by simp⟩
    rw [List.flatten_nil, feed_nil, ← hget, List.set_getElem_self]
  | cons bs bss ih =>
    rw [List.flatMap_cons, List.append_assoc] at hm
    obtain ⟨u, hrun, hu⟩ := run_feedMoves hv hw hk hd hm
    have hku := hu.chan hl
    obtain ⟨hlu, hgetu⟩ := List.getElem?_eq_some_iff.mp hku
    obtain ⟨t, hrun', ht⟩ := ih (hu.cfg.symm ▸ hv) hu.work hku (hu.cfg.symm ▸ Dec.wf_feed hd bs) hu.moves hlu hgetu
    refine ⟨t, ?_, hu.trans ht⟩
    rw [List.flatMap_cons, List.length_append, run_add hrun, hrun']

end Fed

/-! ### The obligations -/

/-- Settles O51: each feed ends where the stream so far ends. -/
theorem chunkBoundariesAreInvisible : Obligations.ChunkBoundariesAreInvisible := by
  intro s ch d bss ms hs hw hk hm
  obtain ⟨t, hrun, ht⟩ := run_flatMap_feedMoves hs.cfg hw hk (hs.decs _ (List.mem_of_getElem? hk)) hm
  exact ⟨t, hrun, ht.cfg, ht.work, ht.moves, ht.chans, ht.events⟩

/-- Settles O49: the command answers in one step, and the feed of its sequence delivers the payload. -/
theorem sendDeliversThePayload : Obligations.SendDeliversThePayload := by
  intro s e ch d p hs hw hm he hp hk hst
  have hd : d.wf s.cfg := hs.decs _ (List.mem_of_getElem? hk)
  rw [sendMoves, if_pos hp] at hm
  have hr : s.request = some ⟨e, p, feedMoves ch (encodeSeq s.cfg p)⟩ := request_iff.mpr ⟨hw, hm, he⟩
  have hstep := step_of_request hs.cfg hr
  rw [if_neg (Nat.not_lt.mpr hp)] at hstep
  obtain ⟨t, hrun, ht⟩ := run_feedMoves (s := s.respondOk e (encodeSeq s.cfg p) (feedMoves ch (encodeSeq s.cfg p)))
    (ms := []) hs.cfg rfl hk hd (List.append_nil _).symm
  have hfeed := feed_encodeSeq hs.cfg hst hp
  refine ⟨t, ?_, ?_, ht.moves, ?_⟩
  · rw [feedMoves_length] at hrun
    rw [show 2 + 2 * (encodeSeq s.cfg p).length = 1 + 2 * (encodeSeq s.cfg p).length + 1 by omega, run_succ hstep, hrun]
  · rw [ht.chans, State.respondOk_cfg, hfeed]
    rfl
  · rw [ht.events, State.respondOk_cfg, hfeed]
    simp

end Sys2Proof.Machine
end
